-- ==== Sys2Proof/Word.lean ====
section
/-! DEFINITION. The word types of FPSD: the byte, the 16-bit field and the byte sequence (spec/00_scope.md R8, R9). -/

namespace Sys2Proof

/-- A byte, `u8` of R9. -/
abbrev Byte := BitVec 8

/-- A 16-bit unsigned value: the length, the command code and the status (R41: the three multi-byte views). -/
abbrev Half := BitVec 16

/-- A finite sequence of bytes, index 0 the byte that arrived first (R9). -/
abbrev Bytes := List Byte

end Sys2Proof
end

