-- ==== Sys2Proof/Syntax.lean ====
section
/-! DEFINITION. The syntax of FPSD: the output message records (spec/30_encoding.md R70 to R73), the outcome of a
frame decode (spec/40_frame_codec.md R81), one sample of the input ports (spec/10_state.md R23), and `Instr`, one
constructor per row of spec/opcode_table.json. -/

namespace Sys2Proof

/-- The kind of a decoded frame (R72). The codes `0b101` to `0b111` are never produced, so they have no constructor. -/
inductive Kind where
  | ack | done | nack | data | ctrlOther
deriving DecidableEq, Repr, Inhabited

/-- The reason of an Error record (R73). The codes `0b00` and `0b11` are never produced. -/
inductive Reason where
  | tooShort | crcMismatch
deriving DecidableEq, Repr, Inhabited

/-- A decoded frame, the fields of a Binary record (R72). `typ` is the spec's field `type`. -/
structure Frame where
  cmd    : Half
  kind   : Kind
  typ    : Byte
  status : Half
  data   : Bytes
  raw    : Bytes
deriving DecidableEq, Repr, Inhabited

/-- One message record (R70): Text (R71), Binary (R72) or Error (R73). The tag `0b11` is never produced. -/
inductive Msg where
  | text   (t : Bytes)
  | binary (f : Frame)
  | error  (r : Reason) (len : Half) (raw : Bytes)
deriving DecidableEq, Repr, Inhabited

/-- The outcome of `TryDecode` (R81): `misaligned` is the model fault of R82, `n` the number of bytes consumed. -/
inductive DecodeOut where
  | misaligned
  | incomplete
  | invalid (r : Reason) (L : Half) (n : Nat)
  | ok (f : Frame) (n : Nat)
deriving DecidableEq, Repr

/-- The result of one drain iteration (R101), with `blocked` for the iteration that does not take place because its
message has no room in OQ (R110). -/
inductive DrainRes where
  | moved | quiet | blocked
deriving DecidableEq, Repr

/-- The branch a drain iteration takes (R101), one per rule R102 to R109. -/
inductive Branch where
  | empty | textRun | frameWait | frameOk | frameInv | line | overflow | wait
deriving DecidableEq, Repr

/-- The input ports as sampled on one rising edge of `clk` (R23). -/
structure PortIn where
  rst       : Bool := false
  inValid   : Bool := false
  inData    : Byte := 0
  inErr     : Bool := false
  reconnect : Bool := false
  cancel    : Bool := false
  outReady  : Bool := false
deriving DecidableEq, Repr

/-- The instructions of FPSD: one constructor per row of spec/opcode_table.json.

The nine frame rows are calls of the two pure codec functions on one frame: `TryDecode` on a buffer of that class, and
for `req` `BuildFrame`.
The eight `d` rows are the branches of one drain iteration; they take their operand from B.
The last six are the transitions of spec/42_port_operations.md. -/
inductive Instr where
  /-- R87: a control frame with type byte `0x01`. -/
  | ack (cmd status : Half)
  /-- R88: a control frame with type byte `0x02`. -/
  | done (cmd status : Half)
  /-- R89: a control frame with type byte `0x04`. -/
  | nack (cmd status : Half)
  /-- R90: a control frame with any other type byte. -/
  | ctrlOther (cmd : Half) (typ : Byte) (status : Half)
  /-- R91: a frame with `L >= 7`; `body` is `P[2:L-1]`. -/
  | data (cmd : Half) (body : Bytes)
  /-- R86: a complete frame with `L >= 6` whose CRC fails; `payload` is `P`, the CRC byte included. -/
  | crcMismatch (payload : Bytes)
  /-- R85: a complete frame with `L <= 5`; `payload` is the `L` bytes after the length field. -/
  | tooShort (payload : Bytes)
  /-- R83, R84: an anchored buffer that does not hold its whole frame; `rest` is what follows the anchor. -/
  | incomplete (rest : Bytes)
  /-- R79: `BuildFrame(cmd, params)`. -/
  | req (cmd : Half) (params : Bytes)
  /-- R102 -/
  | dEmpty
  /-- R103 -/
  | dPrefix
  /-- R104 -/
  | dFrameWait
  /-- R105 -/
  | dFrameOk
  /-- R106 -/
  | dFrameInv
  /-- R107 -/
  | dLine
  /-- R108 -/
  | dOvf
  /-- R109 -/
  | dWait
  /-- R118 -/
  | accept (b : Byte)
  /-- R119 -/
  | pop
  /-- R120 -/
  | reconnect
  /-- R121 -/
  | cancel
  /-- R122 -/
  | terr
  /-- R123 -/
  | reset
deriving DecidableEq, Repr

end Sys2Proof
end

