-- ==== Sys2Proof/Config.lean ====
section
/-! DEFINITION. The constants of FPSD (spec/00_scope.md R7), its implementation parameters (R6) and the values the spec
leaves open, as constants without a body. -/

namespace Sys2Proof

/-- `MAGIC`, the anchor `"CM>"` (R3, R7). -/
def magic : Bytes := [0x43, 0x4D, 0x3E]

/-- `HDR_LEN` (R7). -/
def hdrLen : Nat := 5

/-- `CTRL_LEN` (R7). -/
def ctrlLen : Nat := 6

/-- `MAX_LEN` (R7). -/
def maxLen : Nat := 65535

/-- `MAX_FRAME = HDR_LEN + MAX_LEN` (R7). -/
def maxFrame : Nat := hdrLen + maxLen

/-- `LF`, the only line terminator (R7, decision D6). -/
def lf : Byte := 0x0A

/-- `WS`, the bytes Trim removes (R7, decision D7). -/
def ws : Bytes := [0x09, 0x0A, 0x0B, 0x0C, 0x0D, 0x20]

/-- The implementation parameters (R6), with the point inside a drain at which its message becomes visible, which R125
bounds and leaves open. `bufCap = none` is the spec's `INF`. The two latencies take a counter, so that they "may differ
per byte". -/
structure Config where
  bufCap       : Option Nat
  outDepth     : Nat
  drainLatency : Nat → Nat
  emitLatency  : Nat → Nat

/-- The legal values of R6: `BUF_CAP >= 65540` or `INF`, and `OUT_DEPTH >= 1`. -/
structure Config.Legal (cfg : Config) : Prop where
  bufCap   : ∀ c, cfg.bufCap = some c → maxFrame ≤ c
  outDepth : 1 ≤ cfg.outDepth

/-- Free value (R6, I4: `OUT_DEPTH` is `OPEN`): one less than the depth of OQ where the parameter is left open.
DESIGN CHOICE, log entry 9, safe. -/
opaque Config.outDepthLessOne : Nat

/-- Free value (R6, I5: `DRAIN_LATENCY` is `OPEN`): the cycles one accepted byte keeps BUSY at 1 where the parameter is left open.
DESIGN CHOICE, log entry 10, safe. -/
opaque Config.openDrainLatency : Nat → Nat

/-- Free value (R125 gives only a bound): the cycles until the message of a drain stands in OQ. DESIGN CHOICE, log
entry 11, safe. -/
opaque Config.openEmitLatency : Nat → Nat

/-- Free value (R26, I7): what `out_msg` carries while `out_valid` is 0. DESIGN CHOICE, log entry 12, safe. -/
opaque Config.undrivenMsg : Nat → Msg

end Sys2Proof
end

