-- ==== Sys2Proof/Machine/Bytes.lean ====
section
/-! DEFINITION. The helper functions over bytes: big-endian assembly and the XOR fold (spec/00_scope.md R10), the two
searches and the trim of the demultiplexer (spec/41_stream_demux.md R97 to R99). -/

namespace Sys2Proof

/-- `be16(a, b) = a*256 + b` (R10, R39): the byte at the lower offset is the more significant. -/
def be16 (a b : Byte) : Half := a ++ b

/-- `v[15:8]` of R8. -/
def hiByte (v : Half) : Byte := v.extractLsb' 8 8

/-- `v[7:0]` of R8. -/
def loByte (v : Half) : Byte := v.extractLsb' 0 8

/-- `xorfold(S)`: the XOR of every byte of `S`, from `0x00` (R10). -/
def xorfold (S : Bytes) : Byte := S.foldl (fun c q => c ^^^ q) 0

/-- The slice `S[i:j]` (R9); on B it is `MemRead(i, j-i)`, the only read of storage (R11). -/
def slice (S : Bytes) (i j : Nat) : Bytes := (S.drop i).take (j - i)

/-- `S[0:3] = MAGIC`, with the length it needs. -/
def anchored (S : Bytes) : Bool := S.take 3 == magic

/-- `FindAnchor` (R97): the least `k` with `B[k:k+3] = MAGIC`. -/
def findAnchor : Bytes → Option Nat
  | [] => none
  | b :: t => if anchored (b :: t) then some 0 else (findAnchor t).map (· + 1)

/-- `FindLF` (R98): the least `j` with `B[j] = 0x0A`. -/
def findLF : Bytes → Option Nat
  | [] => none
  | b :: t => if b = lf then some 0 else (findLF t).map (· + 1)

/-- Membership in `WS` (R7). -/
def isWs (b : Byte) : Bool := ws.contains b

/-- `Trim` (R99): drop the bytes of `WS` at both ends and keep what lies between. -/
def trim (S : Bytes) : Bytes := ((S.dropWhile isWs).reverse.dropWhile isWs).reverse

end Sys2Proof
end

