-- ==== Sys2Proof/WellFormed.lean ====
section
/-! DEFINITION. When a term of `Instr` stands for a row of spec/opcode_table.json: the row's `constraint` on `L`, on the
type byte and on the CRC (spec/30_encoding.md R63). -/

namespace Sys2Proof

/-- `|S| < 5`, or `|S| < 5 + L`, for `S = MAGIC ++ rest` (R83, R84). -/
def stillIncomplete : Bytes → Bool
  | a :: b :: body => decide (body.length < (be16 a b).toNat)
  | _ => true

/-- The constraint of each row. The rows that take their operand from the state or from one byte have none. -/
def Instr.wf : Instr → Bool
  | .ctrlOther _ t _ => t != 0x01 && t != 0x02 && t != 0x04
  | .data _ body => decide (4 ≤ body.length) && decide (body.length ≤ 65532)
  | .crcMismatch p => decide (6 ≤ p.length) && decide (p.length ≤ maxLen) && xorfold p != 0
  | .tooShort p => decide (p.length ≤ 5)
  | .incomplete rest => stillIncomplete rest
  | .req _ p => decide (p.length ≤ 65532)
  | .ack _ _ | .done _ _ | .nack _ _ => true
  | .dEmpty | .dPrefix | .dFrameWait | .dFrameOk | .dFrameInv | .dLine | .dOvf | .dWait => true
  | .accept _ | .pop | .reconnect | .cancel | .terr | .reset => true

end Sys2Proof
end

