-- ==== Sys2Proof/Decode.lean ====
section
/-! DEFINITION. The decoder and the encoder: wire frames (spec/30_encoding.md R55 to R69), port events on one clock edge
(spec/42_port_operations.md R124), the code points of the message records (R70, R72, R73), and the host's view of a table
word (R65). -/

namespace Sys2Proof

/-! ### Wire frames -/

/-- Why the decoder rejects a buffer: it does not start with the anchor (R82). -/
inductive DecodeError where
  | misaligned
deriving DecidableEq, Repr

/-- The row the type byte of a control frame selects (R63, R64). -/
def ctrlRow (cmd : Half) (t : Byte) (status : Half) : Instr :=
  if t = 0x01 then .ack cmd status
  else if t = 0x02 then .done cmd status
  else if t = 0x04 then .nack cmd status
  else .ctrlOther cmd t status

/-- The class of a complete frame with payload `P` (R63): by `L`, then the CRC (in the form of R77), then the type byte. -/
def classify (P : Bytes) : Instr :=
  if P.length ≤ 5 then .tooShort P
  else if xorfold P ≠ 0 then .crcMismatch P
  else if P.length = ctrlLen then ctrlRow (be16 (P.getD 0 0) (P.getD 1 0)) (P.getD 2 0) (be16 (P.getD 3 0) (P.getD 4 0))
  else .data (be16 (P.getD 0 0) (P.getD 1 0)) ((P.drop 2).dropLast)

/-- The class of a buffer that starts with the anchor; `rest` is what follows the anchor (R68: bytes 3 and 4 alone tell the
frame's length). -/
def decodeAnchored (rest : Bytes) : Instr :=
  match rest with
  | a :: b :: body =>
    if body.length < (be16 a b).toNat then .incomplete rest
    else classify (body.take (be16 a b).toNat)
  | _ => .incomplete rest

/-- The decoder, total on any bytes: the frame row the front of the buffer stands for (R63), or the named rejection of a
buffer that does not start with the anchor (R82). Bytes after the declared frame do not matter (R93). -/
def decode (S : Bytes) : Except DecodeError Instr :=
  if anchored S then .ok (decodeAnchored (S.drop 3)) else .error .misaligned

/-- A frame around its payload (R55): `MAGIC`, the length big-endian, the payload. -/
def frameOf (P : Bytes) : Bytes :=
  magic ++ [hiByte (BitVec.ofNat 16 P.length), loByte (BitVec.ofNat 16 P.length)] ++ P

/-- A command code and body closed by their CRC byte (R55: the CRC covers offset 5 to the byte before it). -/
def withCrc (body : Bytes) : Bytes := body ++ [xorfold body]

/-- The payload of a control frame (R58). -/
def ctrlPayload (cmd : Half) (typ : Byte) (status : Half) : Bytes :=
  withCrc [hiByte cmd, loByte cmd, typ, hiByte status, loByte status]

/-- The encoder: the wire bytes of a frame row (R58 to R61). The rows that are no frame have no wire bytes. -/
def encode : Instr → Bytes
  | .ack cmd status => frameOf (ctrlPayload cmd 0x01 status)
  | .done cmd status => frameOf (ctrlPayload cmd 0x02 status)
  | .nack cmd status => frameOf (ctrlPayload cmd 0x04 status)
  | .ctrlOther cmd typ status => frameOf (ctrlPayload cmd typ status)
  | .data cmd body => frameOf (withCrc ([hiByte cmd, loByte cmd] ++ body))
  | .crcMismatch p => frameOf p
  | .tooShort p => frameOf p
  | .incomplete rest => magic ++ rest
  | .req cmd params => frameOf (withCrc ([hiByte cmd, loByte cmd] ++ params))
  | .dEmpty | .dPrefix | .dFrameWait | .dFrameOk | .dFrameInv | .dLine | .dOvf | .dWait => []
  | .accept _ | .pop | .reconnect | .cancel | .terr | .reset => []

/-! ### Port events -/

/-- The transitions of one rising edge, in the order of R124. `inReady` and `outValid` are the outputs during the cycle
before the edge. -/
def decodeEdge (p : PortIn) (inReady outValid : Bool) : List Instr :=
  if p.rst then [.reset]
  else
    (if p.reconnect then [.reconnect] else []) ++
    (if outValid && p.outReady then [.pop] else []) ++
    (if p.inValid && inReady then [.accept p.inData] else []) ++
    (if p.inErr then [.terr] else []) ++
    (if p.cancel then [.cancel] else [])

/-- The port condition that stands for one transition alone (the `Encoding` line of R118 to R123); `none` for a row that is
no port event. -/
def encodePort : Instr → Option PortIn
  | .accept b => some { inValid := true, inData := b }
  | .pop => some { outReady := true }
  | .reconnect => some { reconnect := true }
  | .cancel => some { cancel := true }
  | .terr => some { inErr := true }
  | .reset => some { rst := true }
  | .ack _ _ | .done _ _ | .nack _ _ | .ctrlOther _ _ _ | .data _ _ => none
  | .crcMismatch _ | .tooShort _ | .incomplete _ | .req _ _ => none
  | .dEmpty | .dPrefix | .dFrameWait | .dFrameOk | .dFrameInv | .dLine | .dOvf | .dWait => none

/-! ### Drain branches -/

/-- The row of a drain branch (R101): R102 to R109 in order. -/
def Branch.toInstr : Branch → Instr
  | .empty => .dEmpty
  | .textRun => .dPrefix
  | .frameWait => .dFrameWait
  | .frameOk => .dFrameOk
  | .frameInv => .dFrameInv
  | .line => .dLine
  | .overflow => .dOvf
  | .wait => .dWait

/-! ### Code points of the message records -/

/-- The `kind` field of a Binary record (R72). -/
def Kind.code : Kind → BitVec 3
  | .ack => 0b000#3
  | .done => 0b001#3
  | .nack => 0b010#3
  | .data => 0b011#3
  | .ctrlOther => 0b100#3

/-- Reading the `kind` field; `0b101` to `0b111` are never produced (R72). -/
def Kind.ofCode (c : BitVec 3) : Option Kind :=
  if c = 0b000#3 then some .ack
  else if c = 0b001#3 then some .done
  else if c = 0b010#3 then some .nack
  else if c = 0b011#3 then some .data
  else if c = 0b100#3 then some .ctrlOther
  else none

/-- The `reason` field of an Error record (R73). -/
def Reason.code : Reason → BitVec 2
  | .tooShort => 0b01#2
  | .crcMismatch => 0b10#2

/-- Reading the `reason` field; `0b00` and `0b11` are never produced (R73). -/
def Reason.ofCode (c : BitVec 2) : Option Reason :=
  if c = 0b01#2 then some .tooShort
  else if c = 0b10#2 then some .crcMismatch
  else none

/-- The tag of a message record (R70). -/
def Msg.tag : Msg → BitVec 2
  | .text _ => 0b00#2
  | .binary _ => 0b01#2
  | .error _ _ _ => 0b10#2

/-! ### The host's table word -/

/-- The `nbits / 8` bytes of a table word: a row of format `frame_hdr64` is one big-endian word (R65). -/
def tableWordBytes (nbits w : Nat) : Bytes :=
  (List.range (nbits / 8)).map fun k => BitVec.ofNat 8 (w >>> (8 * (nbits / 8 - 1 - k)))

/-- The frame of a table word: its bytes, and zero bytes up to the end the length field declares. -/
def tableWordFrame (nbits w : Nat) : Bytes :=
  let hdr := tableWordBytes nbits w
  hdr ++ List.replicate (hdrLen + (be16 (hdr.getD 3 0) (hdr.getD 4 0)).toNat - hdr.length) 0

/-- The row the decoder reads from a table word. -/
def decodeTableWord (nbits w : Nat) : Option Instr := (decode (tableWordFrame nbits w)).toOption

end Sys2Proof
end

