-- ==== Sys2Proof/Machine/Operands.lean ====
section
/-! DEFINITION. Field assembly: the operands of a frame, read from its bytes by position (spec/30_encoding.md R56, R57, R62). -/

namespace Sys2Proof.Machine

/-- The length field `L = be16(frame[3], frame[4])` (R62). -/
def lenField (S : Bytes) : Half := be16 (S.getD 3 0) (S.getD 4 0)

/-- `T = 5 + L`, computed without wrapping (R10, R56). -/
def frameSize (L : Half) : Nat := hdrLen + L.toNat

/-- The payload `P = frame[5:T]` (R57). -/
def payloadOf (S : Bytes) (L : Half) : Bytes := slice S hdrLen (frameSize L)

/-- The command code `be16(P[0], P[1])` (R62). -/
def cmdField (P : Bytes) : Half := be16 (P.getD 0 0) (P.getD 1 0)

/-- The type byte `P[2]` of a control frame (R62). -/
def typeField (P : Bytes) : Byte := P.getD 2 0

/-- The status `be16(P[3], P[4])` of a control frame (R62). -/
def statusField (P : Bytes) : Half := be16 (P.getD 3 0) (P.getD 4 0)

/-- The data `P[2:L-1]` of a DATA frame (R62). -/
def dataField (P : Bytes) (L : Half) : Bytes := slice P 2 (L.toNat - 1)

/-- The received CRC `P[L-1]` (R62). -/
def crcRx (P : Bytes) (L : Half) : Byte := P.getD (L.toNat - 1) 0

/-- The CRC (R76): the XOR fold of the covered bytes, from `0x00`, with no final inversion. -/
def crc (Q : Bytes) : Byte := xorfold Q

/-- The calculated CRC, over the covered bytes `P[0:L-1]` (R62, R76). -/
def crcCalc (P : Bytes) (L : Half) : Byte := crc (slice P 0 (L.toNat - 1))

/-- The kind the type byte of a control frame stands for (R64, R81). -/
def kindOfType (t : Byte) : Kind :=
  if t = 0x01 then .ack else if t = 0x02 then .done else if t = 0x04 then .nack else .ctrlOther

end Sys2Proof.Machine
end

