-- ==== Sys2Proof/Machine/Codec.lean ====
section
/-! DEFINITION. The frame codec: the pure functions `BuildFrame` and `TryDecode` (spec/40_frame_codec.md R79, R81). -/

namespace Sys2Proof.Machine

/-- `BuildFrame(c, p)` (R79): no frame when `|p| > 65532`. -/
def buildFrame (c : Half) (p : Bytes) : Option Bytes :=
  if 65532 < p.length then none
  else
    let L : Half := BitVec.ofNat 16 (3 + p.length)
    let body := [hiByte c, loByte c] ++ p
    some (magic ++ [hiByte L, loByte L] ++ body ++ [crc body])

/-- The frame of a complete, CRC-checked span (R81, step 5 and 7). -/
def frameFrom (S P : Bytes) (L : Half) : Frame :=
  if L = 6 then
    { cmd := cmdField P, kind := kindOfType (typeField P), typ := typeField P, status := statusField P, data := [],
      raw := slice S 0 (frameSize L) }
  else
    { cmd := cmdField P, kind := .data, typ := 0x00, status := 0x0000, data := dataField P L, raw := slice S 0 (frameSize L) }

/-- `TryDecode(S)` (R81), in the order of its steps (R141). -/
def tryDecode (S : Bytes) : DecodeOut :=
  if !anchored S then .misaligned
  else if S.length < hdrLen then .incomplete
  else
    let L := lenField S
    if S.length < frameSize L then .incomplete
    else
      let P := payloadOf S L
      if L.toNat < ctrlLen then .invalid .tooShort L (frameSize L)
      else if crcCalc P L ≠ crcRx P L then .invalid .crcMismatch L (frameSize L)
      else .ok (frameFrom S P L) (frameSize L)

end Sys2Proof.Machine
end

