-- ==== Sys2Proof/Machine/State.lean ====
section
/-! DEFINITION. The state of FPSD, the reasons a step can stop, and the state after reset.

`Block` is the spec's state record `S = (B, OQ, eng, ovf)` (spec/10_state.md R13), and nothing else is architectural state.
`Cyc` is the cycle-level element BUSY (R21) with what R125 defers while BUSY is 1. `Env` is the environment's side: what it
will do at the ports, and what it has received. `Params` are the parameters of R6. -/

namespace Sys2Proof.Machine

/-- The parameters the machine runs under, which R6 makes arguments: `BUF_CAP` (`none` is `INF`), `OUT_DEPTH` (`none` is `OPEN`)
and `DRAIN_LATENCY` (its values in turn, over and over, since it "may differ per byte"; none listed is `OPEN`). They are chosen
outside the machine and no step writes them. The form is the model's (DESIGN CHOICE, log entry 8, safe). -/
structure Params where
  bufCap       : Option Nat
  outDepth     : Option Nat
  drainLatency : List Nat
deriving DecidableEq, Repr

/-- The values for this hardware (R6, last column). -/
def Params.hw : Params where
  bufCap       := some 65540
  outDepth     := none
  drainLatency := []

/-- The engine state (R16). The encoding `0b11` is never produced, so it has no constructor. -/
inductive Eng where
  | run | stopped | fatal
deriving DecidableEq, Repr

/-- The architectural state (R13): the accumulation buffer `B` (R14), the output queue `OQ` (R15), the engine state `eng`
(R16) and the sticky flag `ovf` (R17). -/
structure Block where
  B   : Bytes
  OQ  : List Msg
  eng : Eng
  ovf : Bool
deriving DecidableEq, Repr

/-- Cycle-level state. `busy` is the number of cycles BUSY stays 1 (R21, R125). The drain that keeps BUSY at 1 has put
`unseen` messages at the end of OQ, which the output port shows from `seenIn` cycles on. The three `pend` bits are the
`reconnect`, `in_err` and `cancel` samples that wait for BUSY to fall. `tick` counts edges and accepted bytes; it only feeds
the free values of Config. DESIGN CHOICE, log entries 10, 11 and 13. -/
structure Cyc where
  busy          : Nat
  unseen        : Nat
  seenIn        : Nat
  pendReconnect : Bool
  pendErr       : Bool
  pendCancel    : Bool
  tick          : Nat
deriving DecidableEq, Repr

/-- What the last stand-alone call of `TryDecode`, `BuildFrame` or `DrainStep` returned. The functions are pure or write only
the block (R18, R101), so their result is the caller's. DESIGN CHOICE, log entry 3, safe. -/
inductive CallResult where
  | noCall
  | decoded (o : DecodeOut)
  | built   (f : Option Bytes)
  | drained (r : DrainRes)
deriving DecidableEq, Repr

/-- What the environment does next: one rising edge with its port samples (R23), or a stand-alone call, the form in which
spec/95_test_vectors.md uses the codec and the drain iteration (sections 2 to 4) and which R134 allows for a model. DESIGN CHOICE, log entries 2 and 3, safe. -/
inductive Stim where
  | edge (p : PortIn)
  | tryDecode (S : Bytes)
  | buildFrame (cmd : Half) (params : Bytes)
  | drainStep
deriving DecidableEq, Repr

/-- The environment: its stimulus, oldest first; the POP outputs in order (`popped` of R127); the last call's result. -/
structure Env where
  stim   : List Stim
  popped : List Msg
  result : CallResult
deriving DecidableEq, Repr

/-- The state of the machine: the spec's record as `blk`, and beside it the parameters and what only the cycle view and the
environment hold. DESIGN CHOICE, log entries 1 and 8, safe. -/
structure State where
  par : Params
  blk : Block
  cyc : Cyc
  env : Env
deriving DecidableEq, Repr

/-- Why the machine stops. -/
inductive Fault where
  /-- `MISALIGNED_DECODE` (R134): a stand-alone `TryDecode` on a buffer that does not start with `MAGIC`; it records that buffer
  (R130). Raised by `Machine.runStim`. The spec's own fault, so neither safe nor unsafe; the block never reaches it. -/
  | misalignedDecode (S : Bytes)
deriving DecidableEq, Repr

/-- Why a step has no meaning. -/
inductive Refusal where
  /-- An instruction without a meaning in this model. Raised by `exec` only. Safe. -/
  | notModelled (mnemonic : String)
  /-- ACCEPT where it is not enabled (R118, I14): the spec gives no step. Raised by `execAccept`. Safe. -/
  | acceptNotEnabled
  /-- POP where it is not enabled (R119, I15): the spec gives no step. Raised by `execPop`. Safe. -/
  | popNotEnabled
  /-- A drain branch that B does not select (R101): the iteration is another branch's. Raised by the `execD…` meanings. Safe. -/
  | branchNotSelected
  /-- A frame term that breaks its row's constraint, so that no buffer is of that class (R63). Raised by the meanings of the
  rows with a constraint. Safe. -/
  | noSuchFrame
deriving DecidableEq, Repr

/-- The block after RESET (R33). -/
def Block.reset : Block where
  B   := []
  OQ  := []
  eng := .run
  ovf := false

/-- The cycle-level state after RESET: BUSY is 0 (R33, R151), and nothing waits for it to fall. The other values are the model's
(DESIGN CHOICE, log entry 15, unsafe). -/
def Cyc.reset : Cyc where
  busy          := 0
  unseen        := 0
  seenIn        := 0
  pendReconnect := false
  pendErr       := false
  pendCancel    := false
  tick          := 0

/-- The environment at the start of a run: nothing offered, nothing received (DESIGN CHOICE, log entry 15). -/
def Env.start : Env where
  stim   := []
  popped := []
  result := .noCall

/-- The machine right after reset (R33, R153), under given parameters. -/
def State.resetWith (par : Params) : State where
  par := par
  blk := Block.reset
  cyc := Cyc.reset
  env := Env.start

/-- The machine right after reset, under the values R6 gives for this hardware. -/
def State.reset : State := State.resetWith Params.hw

end Sys2Proof.Machine
end

