-- ==== Sys2Proof/Machine/Flags.lean ====
section
/-! DEFINITION. The configuration a state runs under (spec/00_scope.md R6). The status and handshake outputs (spec/10_state.md R25, R26, R29 to R31). The block has no condition codes
(R30); `ovf` and `eng` are its two status indications. -/

namespace Sys2Proof.Machine

/-- The configuration of given parameters (R6): what they leave `OPEN` is a free value of Config (log entries 9 and 10). -/
def Params.config (par : Params) : Config where
  bufCap       := par.bufCap
  outDepth     := par.outDepth.getD (Config.outDepthLessOne + 1)
  drainLatency := fun t => par.drainLatency.getD (t % par.drainLatency.length) (Config.openDrainLatency t)
  emitLatency  := Config.openEmitLatency

/-- The configuration of a state. -/
def State.cfg (s : State) : Config := s.par.config

/-- The encoding of `eng` on `st_state` (R16). -/
def Eng.code : Eng → BitVec 2
  | .run => 0b00#2
  | .stopped => 0b01#2
  | .fatal => 0b10#2

/-- Reading `st_state`; `0b11` is never produced (R16, R31). -/
def Eng.ofCode (c : BitVec 2) : Option Eng :=
  if c = 0b00#2 then some .run
  else if c = 0b01#2 then some .stopped
  else if c = 0b10#2 then some .fatal
  else none

/-- `|B| < BUF_CAP`, true of every length when `BUF_CAP` is `INF` (R6). -/
def belowCap (cfg : Config) (n : Nat) : Bool :=
  match cfg.bufCap with
  | none => true
  | some c => decide (n < c)

/-- `|OQ| < OUT_DEPTH`: a message finds room (R25). -/
def Block.room (cfg : Config) (blk : Block) : Bool := decide (blk.OQ.length < cfg.outDepth)

/-- ACCEPT's enabling condition (R118), that is `in_ready` with BUSY and `rst` at 0. -/
def Block.acceptEnabled (cfg : Config) (blk : Block) : Bool :=
  decide (blk.eng = .run) && blk.room cfg && belowCap cfg blk.B.length

/-- BUSY (R21). -/
def Cyc.isBusy (c : Cyc) : Bool := decide (0 < c.busy)

/-- The messages of OQ the output port shows: all but those a running drain has not delivered yet (R125). -/
def State.visible (s : State) : Nat := s.blk.OQ.length - (if s.cyc.seenIn = 0 then 0 else s.cyc.unseen)

/-- `in_ready` (R25). -/
def inReady (rst : Bool) (s : State) : Bool := !rst && !s.cyc.isBusy && s.blk.acceptEnabled s.cfg

/-- `out_valid` (R26). -/
def outValid (rst : Bool) (s : State) : Bool := !rst && decide (0 < s.visible)

/-- The output ports during a cycle (R23). -/
structure PortOut where
  inReady  : Bool
  outValid : Bool
  outMsg   : Msg
  stState  : BitVec 2
  stOvf    : Bool
deriving DecidableEq, Repr

/-- The output ports as a view of the state (R25, R26, R29): `out_msg` is the head of OQ while `out_valid` is 1, and a free
value otherwise (I7). -/
def portOut (rst : Bool) (s : State) : PortOut where
  inReady  := inReady rst s
  outValid := outValid rst s
  outMsg   := if outValid rst s then s.blk.OQ.headD (Config.undrivenMsg s.cyc.tick) else Config.undrivenMsg s.cyc.tick
  stState  := s.blk.eng.code
  stOvf    := s.blk.ovf

end Sys2Proof.Machine
end

