-- ==== Sys2Proof/Machine/Ops.lean ====
section
/-! DEFINITION. The named operations over the storage of the block (spec/00_scope.md R11), the one operation that ends a
drain iteration, the report of a framing error (spec/60_exceptions.md R138) and the two stop conditions with the way out of
them. -/

namespace Sys2Proof.Machine

/-! ### Storage (R11) -/

/-- `Drop(n)`: remove the `n` oldest bytes. -/
def Block.drop (n : Nat) (blk : Block) : Block := { blk with B := blk.B.drop n }

/-- `Append(b)`. -/
def Block.append (b : Byte) (blk : Block) : Block := { blk with B := blk.B ++ [b] }

/-- `Emit(m)`: append one whole message to OQ. -/
def Block.emit (m : Msg) (blk : Block) : Block := { blk with OQ := blk.OQ ++ [m] }

/-- The message `EmitText(S)` emits (R100): the trimmed run, or none when Trim leaves nothing. -/
def textMsg (S : Bytes) : Option Msg := if trim S = [] then none else some (.text (trim S))

/-- The common end of a drain iteration that moves (R101): emit at most one message and drop `n` bytes. An iteration whose
message has no room in OQ does not take place (R110; DESIGN CHOICE, log entry 7, safe). -/
def Block.commit (cfg : Config) (m : Option Msg) (n : Nat) (blk : Block) : Block × DrainRes :=
  match m with
  | none => (blk.drop n, .moved)
  | some msg => if blk.room cfg then ((blk.emit msg).drop n, .moved) else (blk, .blocked)

/-! ### Framing errors: the block's exceptions (R138, R139) -/

/-- Reporting a framing error (R106, R132, R133): the Error message carries the reason, the declared length and the `n` bytes of
the declared span, which are dropped. Nothing is saved, no mode changes, and there is no return operation (R138, R139). -/
def Block.reportError (cfg : Config) (r : Reason) (L : Half) (n : Nat) (blk : Block) : Block × DrainRes :=
  blk.commit cfg (some (.error r L (slice blk.B 0 n))) n

/-! ### Stop conditions and the way out (R135, R139) -/

/-- A cancel (R121): RUN becomes STOPPED; FATAL stays, so that the fatal report is not hidden. -/
def Block.stop (blk : Block) : Block := if blk.eng = .run then { blk with eng := .stopped } else blk

/-- A transport error (R122, R135). -/
def Block.fatal (blk : Block) : Block := { blk with eng := .fatal }

/-- Leaving STOPPED or FATAL by RECONNECT (R120, R139): B empty, `ovf` clear, RUN; OQ is kept. -/
def Block.restart (blk : Block) : Block := { blk with B := [], ovf := false, eng := .run }

/-! ### The state around the block -/

/-- The state with another block. -/
def State.withBlk (s : State) (blk : Block) : State := { s with blk := blk }

/-- The state with other cycle-level state. -/
def State.withCyc (s : State) (c : Cyc) : State := { s with cyc := c }

/-- The state with another stimulus. -/
def State.withStim (s : State) (l : List Stim) : State := { s with env := { s.env with stim := l } }

/-- The state after a stand-alone call that returned `r`. -/
def State.withResult (s : State) (r : CallResult) : State := { s with env := { s.env with result := r } }

/-- The state after the consumer received `m`. -/
def State.receive (s : State) (m : Msg) : State := { s with env := { s.env with popped := s.env.popped ++ [m] } }

end Sys2Proof.Machine
end

