-- ==== Sys2Proof/Machine/Frames.lean ====
section
/-! DEFINITION. The meanings of the nine frame rows: the result of `TryDecode` on a buffer that starts with that frame
(spec/40_frame_codec.md R83 to R91), and of `BuildFrame` (R79). The codec is pure (R18), so a meaning writes the result the
caller receives and nothing else (DEDUCED, log entry 4, safe). -/

namespace Sys2Proof.Machine

/-- The next state of a call of `TryDecode` that returned `o`. -/
def retDecoded (o : DecodeOut) (s : State) : Host.Outcome State Fault Refusal := .next (s.withResult (.decoded o))

/-- The same for a row with a constraint: a term that breaks it is no frame (DESIGN CHOICE, log entry 5, safe). -/
def retDecodedIf (wf : Bool) (o : DecodeOut) (s : State) : Host.Outcome State Fault Refusal :=
  if wf then retDecoded o s else .refused .noSuchFrame

/-- The `Ok` outcome of a control frame (R87 to R90): no data, and `raw` its 11 bytes. -/
def okCtrl (cmd : Half) (kind : Kind) (typ : Byte) (status : Half) (raw : Bytes) : DecodeOut :=
  .ok { cmd := cmd, kind := kind, typ := typ, status := status, data := [], raw := raw } 11

/-- ACK (R87). -/
def execAck (cmd status : Half) (s : State) : Host.Outcome State Fault Refusal :=
  retDecoded (okCtrl cmd .ack 0x01 status (encode (.ack cmd status))) s

/-- DONE (R88). -/
def execDone (cmd status : Half) (s : State) : Host.Outcome State Fault Refusal :=
  retDecoded (okCtrl cmd .done 0x02 status (encode (.done cmd status))) s

/-- NACK (R89). -/
def execNack (cmd status : Half) (s : State) : Host.Outcome State Fault Refusal :=
  retDecoded (okCtrl cmd .nack 0x04 status (encode (.nack cmd status))) s

/-- CTRL_OTHER (R90): the raw type byte is kept. -/
def execCtrlOther (cmd : Half) (typ : Byte) (status : Half) (s : State) : Host.Outcome State Fault Refusal :=
  retDecodedIf (Instr.ctrlOther cmd typ status).wf (okCtrl cmd .ctrlOther typ status (encode (.ctrlOther cmd typ status))) s

/-- DATA (R91): type and status are zero, `data` is everything between the command code and the CRC. -/
def execData (cmd : Half) (body : Bytes) (s : State) : Host.Outcome State Fault Refusal :=
  retDecodedIf (Instr.data cmd body).wf
    (.ok { cmd := cmd, kind := .data, typ := 0x00, status := 0x0000, data := body, raw := encode (.data cmd body) }
      (hdrLen + (body.length + 3))) s

/-- CRC_MISMATCH (R86): all `5 + L` declared bytes are consumed. -/
def execCrcMismatch (payload : Bytes) (s : State) : Host.Outcome State Fault Refusal :=
  retDecodedIf (Instr.crcMismatch payload).wf
    (.invalid .crcMismatch (BitVec.ofNat 16 payload.length) (hdrLen + payload.length)) s

/-- TOO_SHORT (R85): no CRC is checked and no command code is read. -/
def execTooShort (payload : Bytes) (s : State) : Host.Outcome State Fault Refusal :=
  retDecodedIf (Instr.tooShort payload).wf
    (.invalid .tooShort (BitVec.ofNat 16 payload.length) (hdrLen + payload.length)) s

/-- INCOMPLETE (R83, R84): nothing is consumed. -/
def execIncomplete (rest : Bytes) (s : State) : Host.Outcome State Fault Refusal :=
  retDecodedIf (Instr.incomplete rest).wf .incomplete s

/-- REQ (R79): the frame, or `NONE` for more than 65532 parameter bytes. -/
def execReq (cmd : Half) (params : Bytes) (s : State) : Host.Outcome State Fault Refusal :=
  .next (s.withResult (.built (buildFrame cmd params)))

end Sys2Proof.Machine
end

