-- ==== Sys2Proof/Machine/Drain.lean ====
section
/-! DEFINITION. The drain iteration and its loop (spec/41_stream_demux.md R101 to R111), and the meanings of the eight drain
rows: the branch's effect where B selects it. -/

namespace Sys2Proof.Machine

/-- The branch an iteration takes, a function of B alone (R101). -/
def selectBranch (cfg : Config) (B : Bytes) : Branch :=
  if B.length = 0 then .empty
  else
    match findAnchor B with
    | some (_ + 1) => .textRun
    | some 0 =>
      match tryDecode B with
      | .ok _ _ => .frameOk
      | .invalid _ _ _ => .frameInv
      | .incomplete | .misaligned => .frameWait
    | none =>
      match findLF B with
      | some _ => .line
      | none => if belowCap cfg B.length then .wait else .overflow

/-- R102: an empty buffer waits. -/
def branchEmpty (_ : Config) (blk : Block) : Block × DrainRes := (blk, .quiet)

/-- R103: the text before an anchor leaves as a Text message and is dropped. -/
def branchPrefix (cfg : Config) (blk : Block) : Block × DrainRes :=
  match findAnchor blk.B with
  | some k => blk.commit cfg (textMsg (slice blk.B 0 k)) k
  | none => (blk, .quiet)

/-- R104: an anchored buffer waits for the rest of its frame. -/
def branchFrameWait (_ : Config) (blk : Block) : Block × DrainRes := (blk, .quiet)

/-- R105: a decoded frame leaves as a Binary message. -/
def branchFrameOk (cfg : Config) (blk : Block) : Block × DrainRes :=
  match tryDecode blk.B with
  | .ok f n => blk.commit cfg (some (.binary f)) n
  | _ => (blk, .quiet)

/-- R106: a malformed frame is reported and its declared span dropped. -/
def branchFrameInv (cfg : Config) (blk : Block) : Block × DrainRes :=
  match tryDecode blk.B with
  | .invalid r L n => blk.reportError cfg r L n
  | _ => (blk, .quiet)

/-- R107: a terminated line leaves as a Text message; the terminator is dropped with it. -/
def branchLine (cfg : Config) (blk : Block) : Block × DrainRes :=
  match findLF blk.B with
  | some j => blk.commit cfg (textMsg (slice blk.B 0 j)) (j + 1)
  | none => (blk, .quiet)

/-- R108: the text run that fills the buffer leaves but for its last two bytes, and `ovf` is set. -/
def branchOvf (cfg : Config) (blk : Block) : Block × DrainRes :=
  match blk.commit cfg (textMsg (slice blk.B 0 (blk.B.length - 2))) (blk.B.length - 2) with
  | (blk', .moved) => ({ blk' with ovf := true }, .moved)
  | (blk', r) => (blk', r)

/-- R109: a text run that still fits waits. -/
def branchWait (_ : Config) (blk : Block) : Block × DrainRes := (blk, .quiet)

/-- The effect of a branch. -/
def branchEffect (cfg : Config) : Branch → Block → Block × DrainRes
  | .empty => branchEmpty cfg
  | .textRun => branchPrefix cfg
  | .frameWait => branchFrameWait cfg
  | .frameOk => branchFrameOk cfg
  | .frameInv => branchFrameInv cfg
  | .line => branchLine cfg
  | .overflow => branchOvf cfg
  | .wait => branchWait cfg

/-- `DrainStep` (R101), with the iteration that does not take place (R110). -/
def drainStep (cfg : Config) (blk : Block) : Block × DrainRes := branchEffect cfg (selectBranch cfg blk.B) blk

/-- At most `fuel` iterations, ending with the first that does not move. -/
def drainLoop (cfg : Config) : Nat → Block → Block
  | 0, blk => blk
  | fuel + 1, blk =>
    match drainStep cfg blk with
    | (blk', .moved) => drainLoop cfg fuel blk'
    | (blk', _) => blk'

/-- `DrainToQuiescence` (R111). At most `|B|` iterations move (R112), so this fuel reaches the one that does not. -/
def drainToQuiescence (cfg : Config) (blk : Block) : Block := drainLoop cfg (blk.B.length + 1) blk

/-- One stand-alone iteration of a given branch: its effect where B selects it, and its MOVED or QUIET for the caller.
Elsewhere it refuses (DESIGN CHOICE, log entry 6, safe). -/
def runBranch (br : Branch) (effect : Config → Block → Block × DrainRes) (s : State) : Host.Outcome State Fault Refusal :=
  if selectBranch s.cfg s.blk.B = br then
    .next ((s.withBlk (effect s.cfg s.blk).1).withResult (.drained (effect s.cfg s.blk).2))
  else .refused .branchNotSelected

/-- D_EMPTY (R102). -/
def execDEmpty (s : State) : Host.Outcome State Fault Refusal := runBranch .empty branchEmpty s

/-- D_PREFIX (R103). -/
def execDPrefix (s : State) : Host.Outcome State Fault Refusal := runBranch .textRun branchPrefix s

/-- D_FRAME_WAIT (R104). -/
def execDFrameWait (s : State) : Host.Outcome State Fault Refusal := runBranch .frameWait branchFrameWait s

/-- D_FRAME_OK (R105). -/
def execDFrameOk (s : State) : Host.Outcome State Fault Refusal := runBranch .frameOk branchFrameOk s

/-- D_FRAME_INV (R106). -/
def execDFrameInv (s : State) : Host.Outcome State Fault Refusal := runBranch .frameInv branchFrameInv s

/-- D_LINE (R107). -/
def execDLine (s : State) : Host.Outcome State Fault Refusal := runBranch .line branchLine s

/-- D_OVF (R108). -/
def execDOvf (s : State) : Host.Outcome State Fault Refusal := runBranch .overflow branchOvf s

/-- D_WAIT (R109). -/
def execDWait (s : State) : Host.Outcome State Fault Refusal := runBranch .wait branchWait s

end Sys2Proof.Machine
end

