-- ==== Sys2Proof/Machine/Port.lean ====
section
/-! DEFINITION. The six transitions at the ports (spec/42_port_operations.md R118 to R123): each as a function of the block,
and as the meaning of its row on the whole state. -/

namespace Sys2Proof.Machine

/-- ACCEPT(b) on the block (R118): `Append(b); DrainToQuiescence()` where it is enabled. -/
def Block.accept (cfg : Config) (b : Byte) (blk : Block) : Option Block :=
  if blk.acceptEnabled cfg then some (drainToQuiescence cfg (blk.append b)) else none

/-- POP on the block (R119): its output and the queue without its head. -/
def Block.pop (blk : Block) : Option (Msg × Block) :=
  match blk.OQ with
  | [] => none
  | m :: rest => some (m, { blk with OQ := rest })

/-- The cycle-level start of a drain that put `n` messages in OQ (R21, R125): BUSY lasts `DRAIN_LATENCY` cycles, and the
messages are at the output no later than the edge at which it falls. B and `ovf` change at once (DESIGN CHOICE, log entry 18,
unsafe). -/
def Cyc.startDrain (cfg : Config) (n : Nat) (c : Cyc) : Cyc :=
  { c with
    busy   := cfg.drainLatency c.tick
    unseen := n
    seenIn := min (cfg.emitLatency c.tick) (cfg.drainLatency c.tick)
    tick   := c.tick + 1 }

/-- ACCEPT (R118), enabled where `in_ready` is 1 (R25); elsewhere it refuses (DESIGN CHOICE, log entry 6, safe). B, OQ and `ovf`
take their new values at once, also where BUSY then is 1 (DESIGN CHOICE, log entry 18, unsafe). -/
def execAccept (b : Byte) (s : State) : Host.Outcome State Fault Refusal :=
  if s.cyc.isBusy then .refused .acceptNotEnabled
  else
    match s.blk.accept s.cfg b with
    | none => .refused .acceptNotEnabled
    | some blk' =>
      .next ((s.withBlk blk').withCyc (s.cyc.startDrain s.cfg (blk'.OQ.length - s.blk.OQ.length)))

/-- POP (R119): the consumer receives the head of OQ. -/
def execPop (s : State) : Host.Outcome State Fault Refusal :=
  match s.blk.pop with
  | none => .refused .popNotEnabled
  | some (m, blk') => .next ((s.withBlk blk').receive m)

/-- RECONNECT (R120). -/
def execReconnect (s : State) : Host.Outcome State Fault Refusal := .next (s.withBlk s.blk.restart)

/-- CANCEL (R121). -/
def execCancel (s : State) : Host.Outcome State Fault Refusal := .next (s.withBlk s.blk.stop)

/-- TERR (R122). -/
def execTerr (s : State) : Host.Outcome State Fault Refusal := .next (s.withBlk s.blk.fatal)

/-- RESET (R123): every state element takes its reset value, BUSY included; the parameters and what the environment holds stay.
Samples that wait for BUSY to fall are discarded (DEDUCED, log entry 14, unsafe). -/
def execReset (s : State) : Host.Outcome State Fault Refusal :=
  .next ((s.withBlk Block.reset).withCyc { Cyc.reset with tick := s.cyc.tick })

end Sys2Proof.Machine
end

