-- ==== Sys2Proof/Machine/Dispatch.lean ====
section
/-! DEFINITION. The dispatch: one arm per constructor of `Instr`. -/

namespace Sys2Proof.Machine

def exec (i : Instr) (s : State) : Host.Outcome State Fault Refusal :=
  match i with
  | .ack cmd status => Sys2Proof.Machine.execAck cmd status s
  | .done cmd status => Sys2Proof.Machine.execDone cmd status s
  | .nack cmd status => Sys2Proof.Machine.execNack cmd status s
  | .ctrlOther cmd typ status => Sys2Proof.Machine.execCtrlOther cmd typ status s
  | .data cmd body => Sys2Proof.Machine.execData cmd body s
  | .crcMismatch payload => Sys2Proof.Machine.execCrcMismatch payload s
  | .tooShort payload => Sys2Proof.Machine.execTooShort payload s
  | .incomplete rest => Sys2Proof.Machine.execIncomplete rest s
  | .req cmd params => Sys2Proof.Machine.execReq cmd params s
  | .dEmpty => Sys2Proof.Machine.execDEmpty s
  | .dPrefix => Sys2Proof.Machine.execDPrefix s
  | .dFrameWait => Sys2Proof.Machine.execDFrameWait s
  | .dFrameOk => Sys2Proof.Machine.execDFrameOk s
  | .dFrameInv => Sys2Proof.Machine.execDFrameInv s
  | .dLine => Sys2Proof.Machine.execDLine s
  | .dOvf => Sys2Proof.Machine.execDOvf s
  | .dWait => Sys2Proof.Machine.execDWait s
  | .accept b => Sys2Proof.Machine.execAccept b s
  | .pop => Sys2Proof.Machine.execPop s
  | .reconnect => Sys2Proof.Machine.execReconnect s
  | .cancel => Sys2Proof.Machine.execCancel s
  | .terr => Sys2Proof.Machine.execTerr s
  | .reset => Sys2Proof.Machine.execReset s

end Sys2Proof.Machine
end

