-- ==== Sys2Proof/Machine/Edge.lean ====
section
/-! DEFINITION. What one step fetches and runs: a rising edge (spec/42_port_operations.md R124, R125), or a stand-alone call
of `TryDecode`, `BuildFrame` or `DrainStep`. -/

namespace Sys2Proof.Machine

/-- The samples an edge acts on (R125): `reconnect`, `in_err` and `cancel` sampled while BUSY is 1 wait for the edge at which
BUSY falls, and act there with that edge's own samples (DEDUCED, log entry 13, unsafe). -/
def Cyc.effective (p : PortIn) (c : Cyc) : PortIn :=
  if 1 < c.busy then { p with reconnect := false, inErr := false, cancel := false }
  else
    { p with
      reconnect := p.reconnect || c.pendReconnect
      inErr     := p.inErr || c.pendErr
      cancel    := p.cancel || c.pendCancel }

/-- One clock cycle of the cycle-level state (R125): BUSY counts down, and the samples that have to wait are kept. -/
def Cyc.advance (p : PortIn) (c : Cyc) : Cyc where
  busy          := c.busy - 1
  unseen        := c.unseen
  seenIn        := c.seenIn - 1
  pendReconnect := decide (1 < c.busy) && (p.reconnect || c.pendReconnect)
  pendErr       := decide (1 < c.busy) && (p.inErr || c.pendErr)
  pendCancel    := decide (1 < c.busy) && (p.cancel || c.pendCancel)
  tick          := c.tick + 1

/-- The transitions of an edge, from the outputs at the start of the cycle (R124). -/
def edgeEvents (p : PortIn) (s : State) : List Instr :=
  decodeEdge (s.cyc.effective p) (inReady p.rst s) (outValid p.rst s)

/-- Transitions taken in order. -/
def runEvents : List Instr → State → Host.Outcome State Fault Refusal
  | [], s => .next s
  | i :: rest, s =>
    match exec i s with
    | .next s' => runEvents rest s'
    | .fault r => .fault r
    | .refused r => .refused r

/-- One rising edge (R124, R125). -/
def runEdge (p : PortIn) (s : State) : Host.Outcome State Fault Refusal :=
  runEvents (edgeEvents p s) (s.withCyc (s.cyc.advance p))

/-- A stand-alone `TryDecode(S)`: the decoder selects the row; a misaligned buffer is the fault of R134. -/
def runTryDecode (S : Bytes) (s : State) : Host.Outcome State Fault Refusal :=
  match decode S with
  | .error .misaligned => .fault (.misalignedDecode S)
  | .ok i => exec i s

/-- What the environment does next. -/
def runStim (x : Stim) (s : State) : Host.Outcome State Fault Refusal :=
  match x with
  | .edge p => runEdge p s
  | .tryDecode S => runTryDecode S s
  | .buildFrame cmd params => exec (.req cmd params) s
  | .drainStep => exec (selectBranch s.cfg s.blk.B).toInstr s

/-- The step's fetch: the oldest stimulus, or with none left an edge on which nothing is offered (R150). -/
def stepStim (s : State) : Host.Outcome State Fault Refusal :=
  match s.env.stim with
  | [] => runEdge {} s
  | x :: rest => runStim x (s.withStim rest)

/-- The host's table word as the next stimulus: a `TryDecode` of its frame (DEDUCED, log entries 2 and 16, safe). -/
def placeFetchWord (s : State) (nbits w : Nat) : State :=
  s.withStim (.tryDecode (tableWordFrame nbits w) :: s.env.stim)

end Sys2Proof.Machine
end

