-- ==== Sys2Proof/Machine/Step.lean ====
section
/-! DEFINITION. The step of the machine, and the host's way to put a table word where the step fetches. -/

namespace Sys2Proof.Machine

/-- One step: what the environment does next, run on the block (R117, R124). -/
def step (s : State) : Host.Outcome State Fault Refusal := stepStim s

/-- `s` with a table word as the very next thing the step fetches. -/
def State.withFetchWord (s : State) (nbits w : Nat) : State := placeFetchWord s nbits w

end Sys2Proof.Machine
end

