-- ==== Sys2Proof/Machine/Run.lean ====
section
/-! DEFINITION. The block as a labelled transition system, and its runs (spec/42_port_operations.md R117, R127). -/

namespace Sys2Proof.Machine

/-- The labels (R117). -/
inductive Label where
  | accept (b : Byte)
  | pop
  | reconnect
  | cancel
  | terr
  | reset
deriving DecidableEq, Repr

/-- The row of a label. -/
def Label.toInstr : Label → Instr
  | .accept b => .accept b
  | .pop => .pop
  | .reconnect => .reconnect
  | .cancel => .cancel
  | .terr => .terr
  | .reset => .reset

/-- `Step(S, label)` (R117), with the output of a POP; `none` where the label is not enabled. -/
def Block.next (cfg : Config) (l : Label) (blk : Block) : Option (Block × List Msg) :=
  match l with
  | .accept b => (blk.accept cfg b).map fun blk' => (blk', [])
  | .pop => blk.pop.map fun r => (r.2, [r.1])
  | .reconnect => some (blk.restart, [])
  | .cancel => some (blk.stop, [])
  | .terr => some (blk.fatal, [])
  | .reset => some (Block.reset, [])

/-- A label sequence applied from a block, with the POP outputs in order (R126, R127); `none` where a label is not enabled. -/
def Block.run (cfg : Config) : List Label → Block → Option (Block × List Msg)
  | [], blk => some (blk, [])
  | l :: rest, blk =>
    match blk.next cfg l with
    | none => none
    | some (blk', out) => (Block.run cfg rest blk').map fun r => (r.1, out ++ r.2)

/-- `ACCEPT* X` (R74). -/
def acceptAll (X : Bytes) : List Label := X.map Label.accept

/-- The observation of a run (R127): the popped messages, and of the final state OQ, `eng` and `ovf`. -/
structure Observation where
  popped : List Msg
  OQ     : List Msg
  eng    : Eng
  ovf    : Bool
deriving DecidableEq, Repr

/-- The observation of the machine's state (R127); the final B is at no port (R22). -/
def State.observe (s : State) : Observation where
  popped := s.env.popped
  OQ     := s.blk.OQ
  eng    := s.blk.eng
  ovf    := s.blk.ovf

end Sys2Proof.Machine
end

