-- ==== Sys2Proof/Safety.lean ====
section
/-! DEFINITION. What a good state is, in the terms the statements use: the three shapes of a quiescent buffer
(spec/41_stream_demux.md R113), the form of every message record (R71, R95, R115), the bound of OQ (R15), and what BUSY keeps
waiting (R125). -/

namespace Sys2Proof.Machine

/-- Shape Q1 (R113): text with no anchor and no terminator, below the capacity. -/
def TextPending (cfg : Config) (B : Bytes) : Prop :=
  findAnchor B = none ∧ findLF B = none ∧ 1 ≤ B.length ∧ belowCap cfg B.length = true

/-- Shape Q2 (R113): an anchored buffer whose frame is not complete. -/
def FramePending (B : Bytes) : Prop := anchored B = true ∧ tryDecode B = .incomplete

/-- The shapes B takes between transitions (R113): Q0, Q1 or Q2. -/
def Quiescent (cfg : Config) (B : Bytes) : Prop := B = [] ∨ TextPending cfg B ∨ FramePending B

/-- The form of a message. A Text record is non-empty, trimmed, with no terminator and no anchor, and shorter than the capacity
(R71, R115). A Binary or Error record is what `TryDecode` gives for exactly its `raw` bytes (R72, R73, R95). -/
def Msg.Good (cfg : Config) : Msg → Prop
  | .text t => t ≠ [] ∧ trim t = t ∧ findLF t = none ∧ findAnchor t = none ∧ belowCap cfg t.length = true
  | .binary f => tryDecode f.raw = .ok f f.raw.length
  | .error r L raw => tryDecode raw = .invalid r L raw.length

/-- The invariant of the block: B is quiescent (R113), OQ is within its depth (R15), every queued record has its form. -/
structure Block.Good (cfg : Config) (blk : Block) : Prop where
  quiescent : Quiescent cfg blk.B
  depth     : blk.OQ.length ≤ cfg.outDepth
  msgs      : ∀ m ∈ blk.OQ, Msg.Good cfg m

/-- The invariant of the cycle-level state: a message is shown no later than BUSY falls, at most the one message of the drain is
not shown yet and it stands in OQ, and a sample waits only while BUSY is 1 (R125). -/
structure Cyc.Good (c : Cyc) (queued : Nat) : Prop where
  shown  : c.seenIn ≤ c.busy
  unseen : 0 < c.seenIn → c.unseen ≤ 1 ∧ c.unseen ≤ queued
  pend   : c.busy = 0 → c.pendReconnect = false ∧ c.pendErr = false ∧ c.pendCancel = false

/-- The invariant of the machine, under legal parameters (R6). -/
structure State.Good (s : State) : Prop where
  par    : s.cfg.Legal
  blk    : s.blk.Good s.cfg
  cyc    : s.cyc.Good s.blk.OQ.length
  popped : ∀ m ∈ s.env.popped, Msg.Good s.cfg m

end Sys2Proof.Machine
end

