-- ==== Sys2Proof/Certificates/Slice0/Obligations.lean ====
section
/-! DEFINITION. The statements about the model, for the provers. -/

namespace Sys2Proof.Machine

/-- The number of bits set in a byte. -/
def bitCount (e : Byte) : Nat := (List.range 8).countP fun i => e.getLsbD i

/-- The wire bytes of a control frame (R58), written out. -/
def ctrlBytes (cmd : Half) (typ : Byte) (status : Half) : Bytes :=
  [0x43, 0x4D, 0x3E, 0x00, 0x06, hiByte cmd, loByte cmd, typ, hiByte status, loByte status,
    hiByte cmd ^^^ loByte cmd ^^^ typ ^^^ hiByte status ^^^ loByte status]

/-- The messages `EmitText` puts in OQ (R100): the trimmed run, or none. -/
def textOut (S : Bytes) : List Msg := if trim S = [] then [] else [.text (trim S)]

/-- `n < BUF_CAP` for the state's capacity; every `n` where it is `INF` (R6). -/
def State.BelowCap (s : State) (n : Nat) : Prop := ∀ c, s.par.bufCap = some c → n < c

/-- `n >= BUF_CAP`, which takes a finite capacity (R6, R108). -/
def State.AtCap (s : State) (n : Nat) : Prop := ∃ c, s.par.bufCap = some c ∧ c ≤ n

/-- The state after a stand-alone iteration that moved: `out` at the end of OQ and the first `n` bytes dropped. -/
def movedState (s : State) (out : List Msg) (n : Nat) (ovf : Bool) : State :=
  (s.withBlk { s.blk with B := s.blk.B.drop n, OQ := s.blk.OQ ++ out, ovf := ovf }).withResult (.drained .moved)

/-- The state after an accepted byte: the new buffer, `out` at the end of OQ, and BUSY started. -/
def acceptedState (s : State) (B : Bytes) (out : List Msg) (ovf : Bool) : State :=
  (s.withBlk { s.blk with B := B, OQ := s.blk.OQ ++ out, ovf := ovf }).withCyc (s.cyc.startDrain s.cfg out.length)

/-- The message of a complete decode (R105, R106). -/
def messageOf (S : Bytes) : Option Msg :=
  match tryDecode S with
  | .ok f _ => some (.binary f)
  | .invalid r L n => some (.error r L (slice S 0 n))
  | .incomplete | .misaligned => none

/-- The labels that carry the stream: the accepted bytes and the reconnects. -/
def Label.ofStream : Label → Bool
  | .accept _ | .reconnect => true
  | .pop | .cancel | .terr | .reset => false

end Sys2Proof.Machine

open Sys2Proof Sys2Proof.Machine

/-! ### The codec -/

/-- R76 and R77: the CRC is the running XOR from `0x00` over the command code and the body, blind to the order of the bytes; a
payload passes exactly when its whole fold is zero. -/
def Obligations.CrcIsTheRunningXor : Prop :=
  crc [] = 0x00 ∧
  (∀ (Q : Bytes) (q : Byte), crc (Q ++ [q]) = crc Q ^^^ q) ∧
  (∀ n : Nat, crc (List.replicate n 0x00) = 0x00) ∧
  (∀ Q R : Bytes, Q.Perm R → crc Q = crc R) ∧
  crc [0x10, 0x02, 0x01] = 0x13 ∧
  (∀ (P : Bytes) (L : Half), crcCalc P L = crc (slice P 0 (L.toNat - 1)) ∧ crcRx P L = P.getD (L.toNat - 1) 0) ∧
  (∀ (P : Bytes) (L : Half), P.length = L.toNat → 1 ≤ L.toNat → (crcCalc P L = crcRx P L ↔ xorfold P = 0x00))

/-- R78: a change `E` of a frame that passes the check passes again exactly when `xorfold(E) = 0`; so a change of one byte or of
an odd number of bits fails, and one that flips the same bit in an even number of bytes passes. -/
def Obligations.CrcDetectsExactlyTheNonzeroFolds : Prop :=
  ∀ (P E : Bytes) (L : Half), P.length = L.toNat → E.length = L.toNat → 1 ≤ L.toNat → crcCalc P L = crcRx P L →
    let Q := List.zipWith (fun p e => p ^^^ e) P E
    (crcCalc Q L = crcRx Q L ↔ xorfold E = 0x00) ∧
    (∀ k, E.getD k 0 ≠ 0 → (∀ j, j ≠ k → E.getD j 0 = 0) → crcCalc Q L ≠ crcRx Q L) ∧
    ((E.map bitCount).sum % 2 = 1 → crcCalc Q L ≠ crcRx Q L) ∧
    (∀ i < 8, (∀ e ∈ E, e = 0 ∨ e = 1#8 <<< i) → (E.countP fun e => e != 0) % 2 = 0 → crcCalc Q L = crcRx Q L)

/-- R80: the length of a built frame, and its length field. -/
def Obligations.BuiltFrameSpellsItsLength : Prop :=
  ∀ (c : Half) (p : Bytes), p.length ≤ 65532 →
    ∃ F, buildFrame c p = some F ∧ F.length = 8 + p.length ∧ F.length = 5 + (lenField F).toNat ∧
      (lenField F).toNat = 3 + p.length

/-- R96: what a built frame decodes to, for every length of its parameters. -/
def Obligations.BuiltFrameDecodesByItsLength : Prop :=
  ∀ (c : Half) (p F : Bytes), p.length ≤ 65532 → buildFrame c p = some F →
    (p.length ≤ 2 → tryDecode F = .invalid .tooShort (BitVec.ofNat 16 (p.length + 3)) (p.length + 8)) ∧
    (∀ t s1 s0, p = [t, s1, s0] →
      let k := if t = 0x01 then Kind.ack else if t = 0x02 then .done else if t = 0x04 then .nack else .ctrlOther
      tryDecode F = .ok { cmd := c, kind := k, typ := t, status := be16 s1 s0, data := [], raw := F } 11) ∧
    (4 ≤ p.length →
      tryDecode F = .ok { cmd := c, kind := .data, typ := 0x00, status := 0x0000, data := p, raw := F } (p.length + 8))

/-- R79: the row REQ returns the frame of R60, or no frame for more than 65532 parameter bytes. -/
def Obligations.RequestRowBuildsItsFrame : Prop :=
  ∀ (cmd : Half) (p : Bytes) (s : State),
    (p.length ≤ 65532 →
      exec (.req cmd p) s = .next (s.withResult (.built (some
        ([0x43, 0x4D, 0x3E] ++ [hiByte (BitVec.ofNat 16 (3 + p.length)), loByte (BitVec.ofNat 16 (3 + p.length))] ++
          ([hiByte cmd, loByte cmd] ++ p) ++ [xorfold ([hiByte cmd, loByte cmd] ++ p)]))))) ∧
    (65532 < p.length → exec (.req cmd p) s = .next (s.withResult (.built none)))

/-- The rows ACK, DONE, NACK and CTRL_OTHER complete, and return the frame that `TryDecode` gives for the 11 bytes of R58. -/
def Obligations.ControlRowsReturnTheirFrame : Prop :=
  ∀ (cmd status : Half) (typ : Byte) (s : State),
    let ret := fun (k : Kind) (t : Byte) =>
      DecodeOut.ok { cmd := cmd, kind := k, typ := t, status := status, data := [], raw := ctrlBytes cmd t status } 11
    (exec (.ack cmd status) s = .next (s.withResult (.decoded (ret .ack 0x01))) ∧
      tryDecode (ctrlBytes cmd 0x01 status) = ret .ack 0x01) ∧
    (exec (.done cmd status) s = .next (s.withResult (.decoded (ret .done 0x02))) ∧
      tryDecode (ctrlBytes cmd 0x02 status) = ret .done 0x02) ∧
    (exec (.nack cmd status) s = .next (s.withResult (.decoded (ret .nack 0x04))) ∧
      tryDecode (ctrlBytes cmd 0x04 status) = ret .nack 0x04) ∧
    (typ ≠ 0x01 → typ ≠ 0x02 → typ ≠ 0x04 →
      exec (.ctrlOther cmd typ status) s = .next (s.withResult (.decoded (ret .ctrlOther typ))) ∧
      tryDecode (ctrlBytes cmd typ status) = ret .ctrlOther typ)

/-- The row DATA completes for every body of 4 to 65532 bytes, and returns the frame that `TryDecode` gives for the bytes of
R59. -/
def Obligations.DataRowReturnsItsFrame : Prop :=
  ∀ (cmd : Half) (body : Bytes) (s : State), 4 ≤ body.length → body.length ≤ 65532 →
    let L : Half := BitVec.ofNat 16 (body.length + 3)
    let P := [hiByte cmd, loByte cmd] ++ body
    let raw := [0x43, 0x4D, 0x3E, hiByte L, loByte L] ++ P ++ [xorfold P]
    let out := DecodeOut.ok { cmd := cmd, kind := .data, typ := 0x00, status := 0x0000, data := body, raw := raw }
      (body.length + 8)
    exec (.data cmd body) s = .next (s.withResult (.decoded out)) ∧ tryDecode raw = out

/-- The rows CRC_MISMATCH, TOO_SHORT and INCOMPLETE complete, and return what `TryDecode` gives for their bytes. -/
def Obligations.MalformedRowsReturnTheirOutcome : Prop :=
  ∀ (p rest : Bytes) (s : State),
    let L : Half := BitVec.ofNat 16 p.length
    let raw := [0x43, 0x4D, 0x3E, hiByte L, loByte L] ++ p
    (6 ≤ p.length → p.length ≤ 65535 → xorfold p ≠ 0x00 →
      exec (.crcMismatch p) s = .next (s.withResult (.decoded (.invalid .crcMismatch L (5 + p.length)))) ∧
      tryDecode raw = .invalid .crcMismatch L (5 + p.length)) ∧
    (p.length ≤ 5 →
      exec (.tooShort p) s = .next (s.withResult (.decoded (.invalid .tooShort L (5 + p.length)))) ∧
      tryDecode raw = .invalid .tooShort L (5 + p.length)) ∧
    ((rest.length < 2 ∨ rest.length < 2 + (be16 (rest.getD 0 0) (rest.getD 1 0)).toNat) →
      exec (.incomplete rest) s = .next (s.withResult (.decoded .incomplete)) ∧
      tryDecode ([0x43, 0x4D, 0x3E] ++ rest) = .incomplete)

/-- A frame term that breaks its row's constraint is no frame, and its row refuses (the model's choice, log entry 5). -/
def Obligations.NoFrameTermIsRefused : Prop :=
  ∀ (i : Instr) (s : State), i.wf = false → (∀ c p, i ≠ .req c p) → exec i s = .refused .noSuchFrame

/-- R87, R88, R89 and R90: `TryDecode` of each control frame, in the conditions of the rules. -/
def Obligations.ControlFramesDecodeByTheirTypeByte : Prop :=
  ∀ S : Bytes, S.take 3 = [0x43, 0x4D, 0x3E] → lenField S = 6 → 11 ≤ S.length →
    let P := slice S 5 11
    xorfold (slice P 0 5) = P.getD 5 0 →
    let fr := fun (k : Kind) (t : Byte) =>
      DecodeOut.ok (Frame.mk (be16 (P.getD 0 0) (P.getD 1 0)) k t (be16 (P.getD 3 0) (P.getD 4 0)) [] (slice S 0 11)) 11
    (P.getD 2 0 = 0x01 → tryDecode S = fr .ack 0x01) ∧
    (P.getD 2 0 = 0x02 → tryDecode S = fr .done 0x02) ∧
    (P.getD 2 0 = 0x04 → tryDecode S = fr .nack 0x04) ∧
    (P.getD 2 0 ≠ 0x01 → P.getD 2 0 ≠ 0x02 → P.getD 2 0 ≠ 0x04 → tryDecode S = fr .ctrlOther (P.getD 2 0))

/-- R91: `TryDecode` of a DATA frame. -/
def Obligations.DataFramesDecodeByTheirLength : Prop :=
  ∀ (S : Bytes) (L : Half), S.take 3 = [0x43, 0x4D, 0x3E] → L = lenField S → 7 ≤ L.toNat → 5 + L.toNat ≤ S.length →
    let P := slice S 5 (5 + L.toNat)
    xorfold (slice P 0 (L.toNat - 1)) = P.getD (L.toNat - 1) 0 →
    tryDecode S =
      .ok (Frame.mk (be16 (P.getD 0 0) (P.getD 1 0)) .data 0x00 0x0000 (slice P 2 (L.toNat - 1)) (slice S 0 (5 + L.toNat)))
        (5 + L.toNat) ∧
    (slice P 2 (L.toNat - 1)).length = L.toNat - 3

/-- R83 to R86, and the outcome of R82: what `TryDecode` answers for every buffer that is no good frame. -/
def Obligations.MalformedBuffersDecodeByTheFirstCheckThatFails : Prop :=
  ∀ S : Bytes,
    ((S.length < 3 ∨ S.take 3 ≠ [0x43, 0x4D, 0x3E]) → tryDecode S = .misaligned) ∧
    (S.take 3 = [0x43, 0x4D, 0x3E] →
      (S.length < 5 → tryDecode S = .incomplete) ∧
      (5 ≤ S.length → S.length < 5 + (lenField S).toNat → tryDecode S = .incomplete) ∧
      ((lenField S).toNat ≤ 5 → 5 ≤ S.length → 5 + (lenField S).toNat ≤ S.length →
        tryDecode S = .invalid .tooShort (lenField S) (5 + (lenField S).toNat)) ∧
      (6 ≤ (lenField S).toNat → 5 + (lenField S).toNat ≤ S.length →
        xorfold (slice S 5 (4 + (lenField S).toNat)) ≠ S.getD (4 + (lenField S).toNat) 0 →
        tryDecode S = .invalid .crcMismatch (lenField S) (5 + (lenField S).toNat)))

/-- R93 and R94: bytes after the declared frame do not matter, and a frame may come in pieces. -/
def Obligations.DecodeDependsOnTheDeclaredFrameAlone : Prop :=
  ∀ S X : Bytes, anchored S = true →
    (5 ≤ S.length →
      (5 + (lenField S).toNat ≤ S.length → tryDecode S = tryDecode (slice S 0 (5 + (lenField S).toNat))) ∧
      (S.length < 5 + (lenField S).toNat → tryDecode S = .incomplete)) ∧
    (tryDecode S ≠ .incomplete → tryDecode (S ++ X) = tryDecode S) ∧
    (tryDecode S = .incomplete →
      tryDecode (S ++ X) = .incomplete ∨
      tryDecode (S ++ X) = tryDecode (slice (S ++ X) 0 (5 + (lenField (S ++ X)).toNat)))

/-- R92 and R95: what an outcome consumes, and the invariant of the frame in an `Ok` outcome. -/
def Obligations.DecodeConsumesTheDeclaredFrame : Prop :=
  ∀ S : Bytes,
    (∀ f n, tryDecode S = .ok f n →
      n = 5 + (lenField S).toNat ∧ n ≤ S.length ∧ f.raw = slice S 0 n ∧ slice f.raw 0 3 = [0x43, 0x4D, 0x3E] ∧
      f.raw.length = n ∧ (lenField f.raw).toNat = f.raw.length - 5) ∧
    (∀ r L n, tryDecode S = .invalid r L n → L = lenField S ∧ n = 5 + L.toNat ∧ n ≤ S.length)

/-! ### Decoding and encoding -/

/-- The decoder and `TryDecode` are two readings of the same bytes: the row the decoder gives is well-formed, and running it
returns what `TryDecode` returns; the decoder rejects exactly the buffers on which `TryDecode` is misaligned. -/
def Obligations.DecodedRowReturnsTryDecode : Prop :=
  ∀ S : Bytes,
    (decode S = .error .misaligned ↔ tryDecode S = .misaligned) ∧
    (∀ i, decode S = .ok i →
      i.wf = true ∧ ∀ s : State, exec i s = .next (s.withResult (.decoded (tryDecode S))))

/-- Decode of encode is the row itself, for every frame row with every operand its constraint admits and any bytes behind it;
INCOMPLETE is the whole buffer, and REQ reads back as the receive class of its length (R60). -/
def Obligations.DecodeOfEncodeIsTheFrame : Prop :=
  ∀ (i : Instr) (X : Bytes), i.wf = true →
    match i with
    | .ack _ _ | .done _ _ | .nack _ _ | .ctrlOther _ _ _ | .data _ _ | .crcMismatch _ | .tooShort _ =>
      decode (encode i ++ X) = .ok i
    | .incomplete _ => decode (encode i) = .ok i
    | .req c p =>
      (p.length ≤ 2 → decode (encode i ++ X) = .ok (.tooShort ((encode i).drop 5))) ∧
      (4 ≤ p.length → decode (encode i ++ X) = .ok (.data c p))
    | _ => encode i = []

/-- No bit of a frame is dropped: encoding what the decoder read gives the declared frame back (all of the buffer while it is
incomplete). -/
def Obligations.EncodeOfDecodeIsTheDeclaredFrame : Prop :=
  ∀ (S : Bytes) (i : Instr), decode S = .ok i →
    match i with
    | .incomplete _ => encode i = S
    | _ => encode i = slice S 0 (5 + (lenField S).toNat)

/-- R124, the order within one edge: RESET alone, or a selection of RECONNECT, POP, ACCEPT, TERR, CANCEL in this order, each
taken exactly under its port condition. -/
def Obligations.EdgeTakesItsEventsInOrder : Prop :=
  ∀ (p : PortIn) (inR outV : Bool),
    (p.rst = true → decodeEdge p inR outV = [.reset]) ∧
    (p.rst = false →
      (decodeEdge p inR outV).Sublist [.reconnect, .pop, .accept p.inData, .terr, .cancel] ∧
      (Instr.reconnect ∈ decodeEdge p inR outV ↔ p.reconnect = true) ∧
      (Instr.pop ∈ decodeEdge p inR outV ↔ outV = true ∧ p.outReady = true) ∧
      (∀ b, Instr.accept b ∈ decodeEdge p inR outV ↔ b = p.inData ∧ p.inValid = true ∧ inR = true) ∧
      (Instr.terr ∈ decodeEdge p inR outV ↔ p.inErr = true) ∧
      (Instr.cancel ∈ decodeEdge p inR outV ↔ p.cancel = true))

/-- The port condition of a transition, with both handshakes ready, selects that transition alone. -/
def Obligations.PortConditionSelectsItsTransition : Prop :=
  ∀ (i : Instr) (p : PortIn), encodePort i = some p → decodeEdge p true true = [i]

/-- Words written out from R58, R59 and R61 decode to the row they stand for (spec/95_test_vectors.md V22, V24, V28, V31, V33,
V35, V36, V39). -/
def Obligations.WrittenOutFramesDecode : Prop :=
  decode [0x43, 0x4D, 0x3E, 0x00, 0x06, 0x10, 0x00, 0x01, 0x00, 0x00, 0x11] = .ok (.ack 0x1000 0x0000) ∧
  decode [0x43, 0x4D, 0x3E, 0x00, 0x06, 0x10, 0x00, 0x02, 0x00, 0x00, 0x12] = .ok (.done 0x1000 0x0000) ∧
  decode [0x43, 0x4D, 0x3E, 0x00, 0x06, 0x10, 0x02, 0x04, 0x00, 0x05, 0x13] = .ok (.nack 0x1002 0x0005) ∧
  decode [0x43, 0x4D, 0x3E, 0x00, 0x06, 0x20, 0x01, 0x03, 0x12, 0x34, 0x04] = .ok (.ctrlOther 0x2001 0x03 0x1234) ∧
  decode [0x43, 0x4D, 0x3E, 0x00, 0x07, 0x30, 0x03, 0xDE, 0xAD, 0xBE, 0xEF, 0x11] =
    .ok (.data 0x3003 [0xDE, 0xAD, 0xBE, 0xEF]) ∧
  decode [0x43, 0x4D, 0x3E, 0x00, 0x06, 0x10, 0x00, 0x02, 0x00, 0x00, 0x13] =
    .ok (.crcMismatch [0x10, 0x00, 0x02, 0x00, 0x00, 0x13]) ∧
  decode [0x43, 0x4D, 0x3E, 0x00, 0x00] = .ok (.tooShort []) ∧
  decode [0x43, 0x4D, 0x3E, 0x00, 0x05, 0x10, 0x00, 0x00, 0x00] =
    .ok (.incomplete [0x00, 0x05, 0x10, 0x00, 0x00, 0x00]) ∧
  decodeEdge { inValid := true, inData := 0x3E } true false = [.accept 0x3E]

/-- R16, R70, R72 and R73: the code points, and that no other code is read as a value. -/
def Obligations.CodePointsAreTheSpecs : Prop :=
  (Eng.run.code = 0b00#2 ∧ Eng.stopped.code = 0b01#2 ∧ Eng.fatal.code = 0b10#2 ∧ Eng.ofCode 0b11#2 = none) ∧
  (Kind.ack.code = 0b000#3 ∧ Kind.done.code = 0b001#3 ∧ Kind.nack.code = 0b010#3 ∧ Kind.data.code = 0b011#3 ∧
    Kind.ctrlOther.code = 0b100#3) ∧
  (Reason.tooShort.code = 0b01#2 ∧ Reason.crcMismatch.code = 0b10#2) ∧
  (∀ c e, Eng.ofCode c = some e ↔ Eng.code e = c) ∧
  (∀ c k, Kind.ofCode c = some k ↔ Kind.code k = c) ∧
  (∀ c r, Reason.ofCode c = some r ↔ Reason.code r = c) ∧
  (∀ t, (Msg.text t).tag = 0b00#2) ∧ (∀ f, (Msg.binary f).tag = 0b01#2) ∧ (∀ r L b, (Msg.error r L b).tag = 0b10#2)

/-! ### The demultiplexer: searches and trim -/

/-- R97: `FindAnchor` gives the least offset of the anchor, or NONE. -/
def Obligations.FindAnchorIsTheLeastOffset : Prop :=
  ∀ B : Bytes,
    (∀ k, findAnchor B = some k ↔
      k + 3 ≤ B.length ∧ slice B k (k + 3) = [0x43, 0x4D, 0x3E] ∧ ∀ j < k, slice B j (j + 3) ≠ [0x43, 0x4D, 0x3E]) ∧
    (findAnchor B = none ↔ ∀ k, k + 3 ≤ B.length → slice B k (k + 3) ≠ [0x43, 0x4D, 0x3E])

/-- R98: `FindLF` gives the least index of `0x0A`, or NONE. -/
def Obligations.FindLfIsTheLeastIndex : Prop :=
  ∀ B : Bytes,
    (∀ j : Nat, findLF B = some j ↔ B[j]? = some 0x0A ∧ ∀ i < j, B[i]? ≠ some 0x0A) ∧
    (findLF B = none ↔ ∀ i : Nat, B[i]? ≠ some 0x0A)

/-- R99: `Trim` cuts from the first to the last byte outside `WS`, and gives nothing when there is none. -/
def Obligations.TrimCutsToTheOutermostTextBytes : Prop :=
  ∀ S : Bytes,
    let isWhite := fun b : Byte => b ∈ ([0x09, 0x0A, 0x0B, 0x0C, 0x0D, 0x20] : Bytes)
    ((∀ b ∈ S, isWhite b) → trim S = []) ∧
    (∀ a z, a < z → z ≤ S.length → ¬ isWhite (S.getD a 0) → ¬ isWhite (S.getD (z - 1) 0) →
      (∀ i < a, isWhite (S.getD i 0)) → (∀ i, z ≤ i → i < S.length → isWhite (S.getD i 0)) → trim S = slice S a z)

/-! ### The demultiplexer: one iteration -/

/-- R102, R104 and R109: the branches that wait change nothing and return QUIET. -/
def Obligations.WaitingBranchesAreQuiet : Prop :=
  ∀ s : State,
    let quiet := Host.Outcome.next (φ := Fault) (ρ := Refusal) (s.withResult (.drained .quiet))
    (s.blk.B = [] → exec .dEmpty s = quiet) ∧
    (findAnchor s.blk.B = some 0 → tryDecode s.blk.B = .incomplete → exec .dFrameWait s = quiet) ∧
    (s.blk.B ≠ [] → findAnchor s.blk.B = none → findLF s.blk.B = none → s.BelowCap s.blk.B.length → exec .dWait s = quiet)

/-- R103: the text before an anchor leaves, and B then starts with the anchor. -/
def Obligations.TextBeforeTheAnchorLeaves : Prop :=
  ∀ (s : State) (k : Nat), findAnchor s.blk.B = some k → 0 < k →
    (textOut (slice s.blk.B 0 k) = [] ∨ s.blk.OQ.length < s.cfg.outDepth) →
    exec .dPrefix s = .next (movedState s (textOut (slice s.blk.B 0 k)) k s.blk.ovf) ∧ anchored (s.blk.B.drop k) = true

/-- R105 and R106: a decoded frame leaves as Binary, a malformed one as Error with its raw span. -/
def Obligations.CompleteFrameLeavesAsItsMessage : Prop :=
  ∀ s : State, findAnchor s.blk.B = some 0 → s.blk.OQ.length < s.cfg.outDepth →
    (∀ f n, tryDecode s.blk.B = .ok f n → exec .dFrameOk s = .next (movedState s [.binary f] n s.blk.ovf)) ∧
    (∀ r L n, tryDecode s.blk.B = .invalid r L n →
      exec .dFrameInv s = .next (movedState s [.error r L (slice s.blk.B 0 n)] n s.blk.ovf))

/-- R107: a terminated line leaves, and its terminator is dropped with it. -/
def Obligations.TerminatedLineLeaves : Prop :=
  ∀ (s : State) (j : Nat), findAnchor s.blk.B = none → findLF s.blk.B = some j →
    (textOut (slice s.blk.B 0 j) = [] ∨ s.blk.OQ.length < s.cfg.outDepth) →
    exec .dLine s = .next (movedState s (textOut (slice s.blk.B 0 j)) (j + 1) s.blk.ovf)

/-- R108: a text run that fills the buffer leaves but for its last two bytes, and `ovf` is set. -/
def Obligations.FullBufferIsFlushed : Prop :=
  ∀ s : State, s.cfg.Legal → findAnchor s.blk.B = none → findLF s.blk.B = none → s.AtCap s.blk.B.length →
    (textOut (slice s.blk.B 0 (s.blk.B.length - 2)) = [] ∨ s.blk.OQ.length < s.cfg.outDepth) →
    exec .dOvf s =
      .next (movedState s (textOut (slice s.blk.B 0 (s.blk.B.length - 2))) (s.blk.B.length - 2) true) ∧
    (s.blk.B.drop (s.blk.B.length - 2)).length = 2

/-- R110: with OQ full, an iteration that would emit a message does not take place. -/
def Obligations.FullQueueHoldsTheIteration : Prop :=
  ∀ s : State, s.cfg.outDepth ≤ s.blk.OQ.length →
    let held := Host.Outcome.next (φ := Fault) (ρ := Refusal) (s.withResult (.drained .blocked))
    (∀ k, findAnchor s.blk.B = some k → 0 < k → trim (slice s.blk.B 0 k) ≠ [] → exec .dPrefix s = held) ∧
    (∀ f n, findAnchor s.blk.B = some 0 → tryDecode s.blk.B = .ok f n → exec .dFrameOk s = held) ∧
    (∀ r L n, findAnchor s.blk.B = some 0 → tryDecode s.blk.B = .invalid r L n → exec .dFrameInv s = held) ∧
    (∀ j, findAnchor s.blk.B = none → findLF s.blk.B = some j → trim (slice s.blk.B 0 j) ≠ [] → exec .dLine s = held) ∧
    (findAnchor s.blk.B = none → findLF s.blk.B = none → s.AtCap s.blk.B.length →
      trim (slice s.blk.B 0 (s.blk.B.length - 2)) ≠ [] → exec .dOvf s = held)

/-- A drain row runs exactly where B selects its branch (R101), and there it is the drain iteration. -/
def Obligations.DrainRowRunsWhereItIsSelected : Prop :=
  ∀ (s : State) (br : Branch),
    (selectBranch s.cfg s.blk.B = br →
      exec br.toInstr s = .next ((s.withBlk (drainStep s.cfg s.blk).1).withResult
        (.drained (drainStep s.cfg s.blk).2))) ∧
    (selectBranch s.cfg s.blk.B ≠ br → exec br.toInstr s = .refused .branchNotSelected)

/-- R112: how many bytes a MOVED iteration drops at least, branch by branch, and that the loop ends within `|B|` iterations. -/
def Obligations.MovedIterationDropsAndTheLoopEnds : Prop :=
  ∀ (cfg : Config) (blk : Block), cfg.Legal →
    (∀ blk', drainStep cfg blk = (blk', .moved) →
      ∃ n, blk'.B = blk.B.drop n ∧ n ≤ blk.B.length ∧ 1 ≤ n ∧
        (selectBranch cfg blk.B = .frameOk ∨ selectBranch cfg blk.B = .frameInv → 5 ≤ n) ∧
        (selectBranch cfg blk.B = .overflow → n = blk.B.length - 2 ∧ 65538 ≤ n)) ∧
    drainToQuiescence cfg blk = drainLoop cfg blk.B.length blk ∧
    (drainStep cfg (drainToQuiescence cfg blk)).2 ≠ .moved

/-- R113: DrainStep returns QUIET in exactly the shapes Q0, Q1 and Q2. -/
def Obligations.QuietExactlyInTheThreeShapes : Prop :=
  ∀ (cfg : Config) (blk : Block), cfg.Legal → ((drainStep cfg blk).2 = .quiet ↔ Quiescent cfg blk.B)

/-- R47 and R50: the bytes an iteration drops are the bytes its message stands for; only a run of whitespace (and a line's
terminator) is dropped without a message. -/
def Obligations.MessageStandsForTheDroppedBytes : Prop :=
  ∀ (cfg : Config) (blk blk' : Block), drainStep cfg blk = (blk', .moved) →
    ∃ n, blk'.B = blk.B.drop n ∧
      ((blk'.OQ = blk.OQ ∧ ∀ b ∈ slice blk.B 0 n, isWs b = true) ∨
       (∃ t z, blk'.OQ = blk.OQ ++ [.text (trim t)] ∧ slice blk.B 0 n = t ++ z ∧ trim t ≠ [] ∧ (z = [] ∨ z = [lf])) ∨
       (∃ f, blk'.OQ = blk.OQ ++ [.binary f] ∧ f.raw = slice blk.B 0 n) ∨
       (∃ r L, blk'.OQ = blk.OQ ++ [.error r L (slice blk.B 0 n)]))

/-! ### The port operations -/

/-- R114: one byte appended to a quiescent block leaves it quiescent, with at most one message more. -/
def Obligations.AcceptEmitsAtMostOneMessage : Prop :=
  ∀ (cfg : Config) (blk : Block) (b : Byte), cfg.Legal → Quiescent cfg blk.B → blk.acceptEnabled cfg = true →
    ∃ blk', blk.accept cfg b = some blk' ∧ Quiescent cfg blk'.B ∧ blk'.eng = blk.eng ∧
      (blk'.OQ = blk.OQ ∨ ∃ m, blk'.OQ = blk.OQ ++ [m]) ∧
      (blk'.ovf = blk.ovf ∨ (blk'.ovf = true ∧ blk'.B.length = 2 ∧ cfg.bufCap = some (blk.B.length + 1)))

/-- ACCEPT into an empty buffer or a pending text run (R114, from Q0 and Q1): the line, the prefix of a completed anchor or the
overflow leaves; otherwise the byte waits. That B, `ovf` and OQ have their new values in the state in which BUSY has started is
the model's choice (log entries 18 and 11). -/
def Obligations.AcceptedTextByteDrains : Prop :=
  ∀ (s : State) (b : Byte), s.cfg.Legal → s.cyc.busy = 0 → s.blk.eng = .run → s.blk.OQ.length < s.cfg.outDepth →
    findAnchor s.blk.B = none → findLF s.blk.B = none → s.BelowCap s.blk.B.length →
    let B := s.blk.B
    (b = 0x0A → exec (.accept b) s = .next (acceptedState s [] (textOut B) s.blk.ovf)) ∧
    (b = 0x3E → 2 ≤ B.length → B.drop (B.length - 2) = [0x43, 0x4D] →
      exec (.accept b) s =
        .next (acceptedState s [0x43, 0x4D, 0x3E] (textOut (slice B 0 (B.length - 2))) s.blk.ovf)) ∧
    (b ≠ 0x0A → ¬ (b = 0x3E ∧ 2 ≤ B.length ∧ B.drop (B.length - 2) = [0x43, 0x4D]) →
      s.par.bufCap = some (B.length + 1) →
      exec (.accept b) s =
        .next (acceptedState s ((B ++ [b]).drop (B.length - 1)) (textOut ((B ++ [b]).take (B.length - 1))) true)) ∧
    (b ≠ 0x0A → ¬ (b = 0x3E ∧ 2 ≤ B.length ∧ B.drop (B.length - 2) = [0x43, 0x4D]) →
      s.par.bufCap ≠ some (B.length + 1) →
      exec (.accept b) s = .next (acceptedState s (B ++ [b]) [] s.blk.ovf))

/-- ACCEPT into a pending frame (R114, from Q2): the frame's last byte sends its message and leaves B empty; before it the byte
waits. That B and OQ have their new values in the state in which BUSY has started is the model's choice (log entries 18 and
11). -/
def Obligations.AcceptedFrameByteDrains : Prop :=
  ∀ (s : State) (b : Byte), s.cfg.Legal → s.cyc.busy = 0 → s.blk.eng = .run → s.blk.OQ.length < s.cfg.outDepth →
    FramePending s.blk.B →
    let B := s.blk.B ++ [b]
    (tryDecode B = .incomplete → exec (.accept b) s = .next (acceptedState s B [] s.blk.ovf)) ∧
    (∀ f n, tryDecode B = .ok f n → exec (.accept b) s = .next (acceptedState s [] [.binary f] s.blk.ovf) ∧ f.raw = B) ∧
    (∀ r L n, tryDecode B = .invalid r L n → exec (.accept b) s = .next (acceptedState s [] [.error r L B] s.blk.ovf))

/-- R118 and R119, the enabling conditions: ACCEPT runs exactly where `in_ready` is 1 (R25) and is refused elsewhere; POP is refused
exactly where OQ is empty (that it runs elsewhere is `PopDeliversTheHead`). Where the spec gives no step, the two refusals are the
model's choice (log entry 6). -/
def Obligations.AcceptAndPopRunExactlyWhereEnabled : Prop :=
  ∀ (s : State) (b : Byte),
    ((∃ t, exec (.accept b) s = .next t) ↔
      s.blk.eng = .run ∧ s.blk.OQ.length < s.cfg.outDepth ∧ s.BelowCap s.blk.B.length ∧ s.cyc.busy = 0) ∧
    ((¬ ∃ t, exec (.accept b) s = .next t) ↔ exec (.accept b) s = .refused .acceptNotEnabled) ∧
    (s.blk.OQ = [] ↔ exec .pop s = .refused .popNotEnabled)

/-- R119: POP outputs the head of OQ and removes it, in every engine state; with OQ empty there is no step. -/
def Obligations.PopDeliversTheHead : Prop :=
  decodeEdge { outReady := true } false true = [.pop] ∧
  ∀ s : State,
    (∀ (m : Msg) (rest : List Msg), s.blk.OQ = m :: rest →
      exec .pop s =
        .next { s with blk := { s.blk with OQ := rest }, env := { s.env with popped := s.env.popped ++ [m] } }) ∧
    (s.blk.OQ = [] → ¬ ∃ t, exec .pop s = .next t)

/-- R33, R120, R123 and R152: RECONNECT and RESET, which differ in OQ alone (and in what only the cycle view holds), and the
reset state. -/
def Obligations.ReconnectKeepsTheQueueAndResetEmptiesIt : Prop :=
  decodeEdge { reconnect := true } false false = [.reconnect] ∧
  (∀ (p : PortIn) (inR outV : Bool), p.rst = true → decodeEdge p inR outV = [.reset]) ∧
  (∀ par : Params, (State.resetWith par).blk = { B := [], OQ := [], eng := .run, ovf := false } ∧
    (State.resetWith par).cyc.busy = 0) ∧
  ∀ s : State,
    exec .reconnect s = .next { s with blk := { B := [], OQ := s.blk.OQ, eng := .run, ovf := false } } ∧
    (∃ t, exec .reset s = .next t ∧ t.blk = { B := [], OQ := [], eng := .run, ovf := false } ∧ t.cyc.busy = 0 ∧
      t.env = s.env ∧ t.par = s.par) ∧
    (∃ t u, exec .reconnect s = .next t ∧ exec .reset s = .next u ∧ t.blk = { u.blk with OQ := s.blk.OQ })

/-- R121 and R122: CANCEL stops a running engine and leaves FATAL and STOPPED alone; TERR is FATAL from every state. -/
def Obligations.CancelStopsAndTerrIsFatal : Prop :=
  decodeEdge { cancel := true } false false = [.cancel] ∧ decodeEdge { inErr := true } false false = [.terr] ∧
  ∀ s : State,
    (s.blk.eng = .run → exec .cancel s = .next { s with blk := { s.blk with eng := .stopped } }) ∧
    (s.blk.eng ≠ .run → exec .cancel s = .next s) ∧
    exec .terr s = .next { s with blk := { s.blk with eng := .fatal } }

/-- R162: once stopped, no label sequence without RECONNECT and RESET takes a byte, changes B or leaves the stop. -/
def Obligations.StoppedEngineFreezesTheBuffer : Prop :=
  ∀ (cfg : Config) (ls : List Label) (blk blk' : Block) (out : List Msg), blk.eng ≠ .run →
    Label.reconnect ∉ ls → Label.reset ∉ ls → Block.run cfg ls blk = some (blk', out) →
    (∀ b, Label.accept b ∉ ls) ∧ blk'.B = blk.B ∧ blk'.ovf = blk.ovf ∧ blk'.eng ≠ .run ∧
    (blk.eng = .fatal → blk'.eng = .fatal) ∧ blk.OQ = out ++ blk'.OQ

/-! ### Whole-machine rules and frames -/

/-- R30: who writes `eng` and `ovf`, over every row and every state. -/
def Obligations.EngineAndOverflowHaveOnlyTheirWriters : Prop :=
  ∀ (i : Instr) (s t : State), exec i s = .next t →
    (t.blk.eng ≠ s.blk.eng → i = .cancel ∨ i = .terr ∨ i = .reconnect ∨ i = .reset) ∧
    (s.blk.ovf = true → t.blk.ovf = false → i = .reconnect ∨ i = .reset) ∧
    (s.blk.ovf = false → t.blk.ovf = true →
      (i = .dOvf ∧ s.AtCap s.blk.B.length) ∨ ((∃ b, i = .accept b) ∧ s.AtCap (s.blk.B.length + 1)))

/-- R15, R50: OQ grows at its end and loses a message only by POP or RESET. -/
def Obligations.QueueLosesOnlyByPopOrReset : Prop :=
  ∀ (i : Instr) (s t : State), exec i s = .next t →
    (i ≠ .pop → i ≠ .reset → ∃ new, t.blk.OQ = s.blk.OQ ++ new) ∧
    (i = .pop → ∃ m, s.blk.OQ = m :: t.blk.OQ ∧ t.env.popped = s.env.popped ++ [m]) ∧
    (i ≠ .pop → t.env.popped = s.env.popped)

/-- Frame of the nine codec rows (R18): they write the result of the call, and nothing else. -/
def Obligations.CodecRowsWriteOnlyTheirResult : Prop :=
  ∀ (i : Instr) (s t : State),
    ((∃ c st, i = .ack c st) ∨ (∃ c st, i = .done c st) ∨ (∃ c st, i = .nack c st) ∨ (∃ c ty st, i = .ctrlOther c ty st) ∨
      (∃ c b, i = .data c b) ∨ (∃ p, i = .crcMismatch p) ∨ (∃ p, i = .tooShort p) ∨ (∃ r, i = .incomplete r) ∨
      (∃ c p, i = .req c p)) →
    exec i s = .next t → t.par = s.par ∧ t.blk = s.blk ∧ t.cyc = s.cyc ∧ t.env.stim = s.env.stim ∧ t.env.popped = s.env.popped

/-- Frame of the eight drain rows (R101, `Written`): B only loses a prefix, `eng` stays, `ovf` stays but for D_OVF, at most one
message enters OQ, and nothing outside the block but the call's result changes. -/
def Obligations.DrainRowsFrame : Prop :=
  ∀ (br : Branch) (s t : State), exec br.toInstr s = .next t →
    (∃ n, t.blk.B = s.blk.B.drop n) ∧ t.blk.eng = s.blk.eng ∧ (br ≠ .overflow → t.blk.ovf = s.blk.ovf) ∧
    (t.blk.OQ = s.blk.OQ ∨ ∃ m, t.blk.OQ = s.blk.OQ ++ [m]) ∧
    (br = .empty ∨ br = .frameWait ∨ br = .wait → t.blk = s.blk) ∧
    t.par = s.par ∧ t.cyc = s.cyc ∧ t.env.stim = s.env.stim ∧ t.env.popped = s.env.popped

/-- Frame of the six port rows (`Written` of R118 to R123): what each leaves unchanged. -/
def Obligations.PortRowsFrame : Prop :=
  ∀ s t : State,
    (∀ b, exec (.accept b) s = .next t → t.blk.eng = s.blk.eng ∧ t.par = s.par ∧ t.env = s.env ∧
      t.cyc.pendReconnect = s.cyc.pendReconnect ∧ t.cyc.pendErr = s.cyc.pendErr ∧ t.cyc.pendCancel = s.cyc.pendCancel) ∧
    (exec .pop s = .next t → t.blk.B = s.blk.B ∧ t.blk.eng = s.blk.eng ∧ t.blk.ovf = s.blk.ovf ∧ t.par = s.par ∧
      t.cyc = s.cyc ∧ t.env.stim = s.env.stim ∧ t.env.result = s.env.result) ∧
    (exec .reconnect s = .next t → t.blk.OQ = s.blk.OQ ∧ t.par = s.par ∧ t.cyc = s.cyc ∧ t.env = s.env) ∧
    (exec .cancel s = .next t ∨ exec .terr s = .next t →
      t.blk.B = s.blk.B ∧ t.blk.OQ = s.blk.OQ ∧ t.blk.ovf = s.blk.ovf ∧ t.par = s.par ∧ t.cyc = s.cyc ∧ t.env = s.env) ∧
    (exec .reset s = .next t → t.par = s.par ∧ t.env = s.env)

/-! ### The outputs -/

/-- R25, R26 and R29: the outputs as functions of the state; while `rst` is 1 neither handshake is offered (R34). -/
def Obligations.OutputsFollowTheState : Prop :=
  ∀ (s : State) (rst : Bool),
    let o := portOut rst s
    (o.inReady = true ↔ rst = false ∧ s.blk.eng = .run ∧ s.cyc.busy = 0 ∧ s.blk.OQ.length < s.cfg.outDepth ∧
      s.BelowCap s.blk.B.length) ∧
    (s.cyc.busy = 0 → State.Good s → (o.outValid = true ↔ rst = false ∧ 0 < s.blk.OQ.length)) ∧
    (∀ m rest, o.outValid = true → s.blk.OQ = m :: rest → o.outMsg = m) ∧
    (State.Good s → s.BelowCap s.blk.B.length) ∧
    o.stState = s.blk.eng.code ∧ o.stOvf = s.blk.ovf

/-- R34: the outputs in the first cycle after reset, under all legal parameters, and while `rst` is 1. -/
def Obligations.OutputsAfterReset : Prop :=
  (∀ par : Params, par.config.Legal →
    let o := portOut false (State.resetWith par)
    o.inReady = true ∧ o.outValid = false ∧ o.stState = 0b00#2 ∧ o.stOvf = false) ∧
  ∀ s, (portOut true s).inReady = false ∧ (portOut true s).outValid = false

/-- R26: an offered message stays offered, and the same, over an edge that neither takes it nor resets. -/
def Obligations.OfferedMessageStaysUntilPopped : Prop :=
  ∀ (s t : State) (p : PortIn), State.Good s → outValid false s = true → p.rst = false → p.outReady = false →
    runEdge p s = .next t →
    outValid false t = true ∧ (portOut false t).outMsg = (portOut false s).outMsg

/-! ### The step -/

/-- The step runs what it fetches: the events of an edge in order, the row the decoder reads from a buffer, the frame builder's
row, the selected drain row; and with no stimulus an edge on which nothing is offered (R150). -/
def Obligations.StepRunsTheDecodedInstruction : Prop :=
  ∀ (s : State) (rest : List Stim),
    (∀ p, s.env.stim = .edge p :: rest →
      step s = runEvents (decodeEdge (s.cyc.effective p) (inReady p.rst s) (outValid p.rst s))
        ((s.withStim rest).withCyc (s.cyc.advance p))) ∧
    (∀ p i, s.env.stim = .edge p :: rest →
      decodeEdge (s.cyc.effective p) (inReady p.rst s) (outValid p.rst s) = [i] →
      step s = exec i ((s.withStim rest).withCyc (s.cyc.advance p))) ∧
    (∀ S i, s.env.stim = .tryDecode S :: rest → decode S = .ok i → step s = exec i (s.withStim rest)) ∧
    (∀ S, s.env.stim = .tryDecode S :: rest → decode S = .error .misaligned → step s = .fault (.misalignedDecode S)) ∧
    (∀ c p, s.env.stim = .buildFrame c p :: rest → step s = exec (.req c p) (s.withStim rest)) ∧
    (s.env.stim = .drainStep :: rest → step s = exec (selectBranch s.cfg s.blk.B).toInstr (s.withStim rest)) ∧
    (s.env.stim = [] → step s = runEdge {} s)

/-- The machine never stops but by the fault of R134: a stand-alone `TryDecode` on a buffer without the anchor. In particular
no edge stops it (R124: an ACCEPT or POP that an edge takes is enabled when its turn comes). -/
def Obligations.StepStopsOnlyOnAMisalignedCall : Prop :=
  ∀ s : State,
    (∃ t, step s = .next t) ∨
    (∃ S rest, s.env.stim = .tryDecode S :: rest ∧ anchored S = false ∧ step s = .fault (.misalignedDecode S))

/-- R125: while BUSY stays 1 over an edge, `reconnect`, `in_err` and `cancel` wait and BUSY counts down; on the edge at which it
falls, what waited acts as if sampled there. That B and `ovf` stay as they are while BUSY stays 1, the drain having changed them
at the accepting edge, is the model's choice (log entry 18); that the falling edge's own samples act there is an inference (log
entry 13). -/
def Obligations.BusyDefersTheControls : Prop :=
  ∀ (s t : State) (p : PortIn), p.rst = false → runEdge p s = .next t →
    (1 < s.cyc.busy →
      t.blk.B = s.blk.B ∧ t.blk.eng = s.blk.eng ∧ t.blk.ovf = s.blk.ovf ∧ t.cyc.busy = s.cyc.busy - 1 ∧
      t.cyc.pendReconnect = (p.reconnect || s.cyc.pendReconnect) ∧ t.cyc.pendErr = (p.inErr || s.cyc.pendErr) ∧
      t.cyc.pendCancel = (p.cancel || s.cyc.pendCancel)) ∧
    (s.cyc.busy = 1 →
      t.cyc.busy = 0 ∧ t.cyc.pendReconnect = false ∧ t.cyc.pendErr = false ∧ t.cyc.pendCancel = false ∧
      t.blk.B = (if p.reconnect || s.cyc.pendReconnect then [] else s.blk.B) ∧
      t.blk.ovf = (if p.reconnect || s.cyc.pendReconnect then false else s.blk.ovf) ∧
      t.blk.eng =
        (if p.inErr || s.cyc.pendErr then .fatal
         else
          let e := if p.reconnect || s.cyc.pendReconnect then .run else s.blk.eng
          if (p.cancel || s.cyc.pendCancel) && e = .run then .stopped else e))

/-- The state after reset meets the invariant, under all legal parameters; those of this hardware are legal. -/
def Obligations.ResetStateIsGood : Prop :=
  (∀ par : Params, par.config.Legal → State.Good (State.resetWith par)) ∧ State.Good State.reset

/-- R6: the parameters are arguments. Every legal value is taken as it is given (a capacity, `INF`, a depth, a latency for each
byte), the values for this hardware leave what is `OPEN` open, and no instruction and no step writes them. How the state holds
them is the model's choice (log entry 8). -/
def Obligations.ParametersAreArguments : Prop :=
  State.reset.par = { bufCap := some 65540, outDepth := none, drainLatency := [] } ∧
  (∀ par : Params, par.config.Legal ↔
    (∀ c, par.bufCap = some c → 65540 ≤ c) ∧ (∀ d, par.outDepth = some d → 1 ≤ d)) ∧
  (∀ (s : State) (d : Nat), s.cfg.bufCap = s.par.bufCap ∧ (s.par.outDepth = some d → s.cfg.outDepth = d)) ∧
  (∀ (s : State) (n k l : Nat), k < s.par.drainLatency.length → s.par.drainLatency[k]? = some l →
    s.cfg.drainLatency (s.par.drainLatency.length * n + k) = l) ∧
  (∀ (i : Instr) (s t : State), exec i s = .next t → t.par = s.par) ∧
  (∀ s t : State, step s = .next t → t.par = s.par)

/-- Every step keeps the invariant: the parameters are legal (R6), B is in one of the shapes Q0, Q1, Q2 (R113, R20), OQ is within its depth (R15), every queued
and delivered record has the form of R71, R72, R73, R95 and R115, and only a busy block has samples waiting (R125). -/
def Obligations.StepKeepsTheInvariant : Prop :=
  ∀ s t : State, State.Good s → step s = .next t → State.Good t

/-- The machine with its clock, BUSY and deferred controls is a run of the labelled transition system of R117: what a step does
to the block is a sequence of enabled transitions, and the consumer receives exactly their POP outputs. On an edge of an
idle block the sequence is the edge's events (R124). -/
def Obligations.StepRefinesTheTransitionSystem : Prop :=
  ∀ s t : State, State.Good s → step s = .next t →
    ∃ (ls : List Label) (out : List Msg),
      Block.run s.cfg ls s.blk = some (t.blk, out) ∧ t.env.popped = s.env.popped ++ out ∧
      (∀ p rest, s.env.stim = .edge p :: rest → s.cyc.busy = 0 →
        ls.map Label.toInstr = decodeEdge p (inReady p.rst s) (outValid p.rst s))

/-! ### Streams -/

/-- A complete frame, fed byte by byte into an empty running block with room in OQ, gives exactly the one message that decoding
it whole gives, and leaves B empty (R116, the source's chunked delivery invariance). -/
def Obligations.FrameFedByBytesGivesItsOneMessage : Prop :=
  ∀ (cfg : Config) (blk : Block) (F : Bytes), cfg.Legal → blk.B = [] → blk.eng = .run → blk.OQ.length < cfg.outDepth →
    anchored F = true → 5 ≤ F.length → F.length = 5 + (lenField F).toNat →
    ∃ m, messageOf F = some m ∧
      Block.run cfg (acceptAll F) blk = some ({ blk with OQ := blk.OQ ++ [m] }, [])

/-- A line with no anchor, shorter than the capacity, fed byte by byte with its terminator, gives its trimmed text (R116). -/
def Obligations.LineFedByBytesGivesItsText : Prop :=
  ∀ (cfg : Config) (blk : Block) (X : Bytes), cfg.Legal → blk.B = [] → blk.eng = .run → blk.OQ.length < cfg.outDepth →
    findAnchor X = none → lf ∉ X → belowCap cfg X.length = true →
    Block.run cfg (acceptAll (X ++ [lf])) blk = some ({ blk with OQ := blk.OQ ++ textOut X }, [])

/-- R116: from reset, two runs with the same bytes and reconnects produce the same messages in the same order and leave the same
B and `ovf`, whatever the depths of their queues, whenever their consumers pop, and wherever CANCEL and TERR fall. -/
def Obligations.MessagesDependOnTheStreamAlone : Prop :=
  ∀ (cfg₁ cfg₂ : Config) (ls₁ ls₂ : List Label) (b₁ b₂ : Block) (out₁ out₂ : List Msg),
    cfg₁.Legal → cfg₂.Legal → cfg₁.bufCap = cfg₂.bufCap → Label.reset ∉ ls₁ → Label.reset ∉ ls₂ →
    ls₁.filter Label.ofStream = ls₂.filter Label.ofStream →
    Block.run cfg₁ ls₁ Block.reset = some (b₁, out₁) → Block.run cfg₂ ls₂ Block.reset = some (b₂, out₂) →
    out₁ ++ b₁.OQ = out₂ ++ b₂.OQ ∧ b₁.B = b₂.B ∧ b₁.ovf = b₂.ovf
end

