-- ==== Sys2Proof/Laws/Bytes.lean ====
section
/-! SUPPORT. What the byte helpers compute: big-endian assembly, the XOR fold, slices, the two searches and the trim. -/

namespace Sys2Proof

/-! ### Big-endian assembly -/

theorem be16_toNat (a b : Byte) : (be16 a b).toNat = a.toNat * 256 + b.toNat := by
  unfold be16
  rw [BitVec.toNat_append, Nat.shiftLeft_eq, ← Nat.shiftLeft_eq, ← Nat.shiftLeft_add_eq_or_of_lt (by omega), Nat.shiftLeft_eq]

theorem be16_toNat_lt (a b : Byte) : (be16 a b).toNat < 65536 := (be16 a b).isLt

@[simp] theorem be16_hi_lo (v : Half) : be16 (hiByte v) (loByte v) = v := by
  unfold be16 hiByte loByte
  ext i hi
  simp only [BitVec.getElem_append, BitVec.getElem_extractLsb']
  split <;> rename_i h
  · simp [BitVec.getLsbD_eq_getElem hi]
  · have : 8 + (i - 8) = i := by omega
    simp [this, BitVec.getLsbD_eq_getElem hi]

@[simp] theorem hiByte_be16 (a b : Byte) : hiByte (be16 a b) = a := by
  unfold be16 hiByte
  ext i hi
  rw [BitVec.getElem_extractLsb']
  refine (BitVec.getLsbD_append (x := a) (y := b) (i := 8 + i)).trans ?_
  simp [BitVec.getLsbD_eq_getElem hi]

@[simp] theorem loByte_be16 (a b : Byte) : loByte (be16 a b) = b := by
  unfold be16 loByte
  ext i hi
  rw [BitVec.getElem_extractLsb']
  refine (BitVec.getLsbD_append (x := a) (y := b) (i := 0 + i)).trans ?_
  simp [hi]

/-! ### The XOR fold -/

theorem foldl_xor (S : Bytes) (c : Byte) : S.foldl (fun c q => c ^^^ q) c = c ^^^ xorfold S := by
  unfold xorfold
  induction S generalizing c with
  | nil => simp
  | cons q S ih => simp only [List.foldl_cons]; rw [ih (c ^^^ q), ih (0 ^^^ q)]; simp [BitVec.xor_assoc]

@[simp] theorem xorfold_nil : xorfold [] = 0 := rfl

@[simp] theorem xorfold_cons (q : Byte) (S : Bytes) : xorfold (q :: S) = q ^^^ xorfold S := by
  show S.foldl _ (0 ^^^ q) = _
  rw [foldl_xor]; simp

@[simp] theorem xorfold_append (S T : Bytes) : xorfold (S ++ T) = xorfold S ^^^ xorfold T := by
  induction S with
  | nil => simp
  | cons q S ih => simp [ih, BitVec.xor_assoc]

theorem byte_xor_eq_zero {a b : Byte} : a ^^^ b = 0 ↔ a = b := by
  constructor
  · intro h
    have : a ^^^ b ^^^ b = 0 ^^^ b := by rw [h]
    simpa [BitVec.xor_assoc] using this
  · rintro rfl; simp

/-! ### The anchor -/

theorem anchored_iff (S : Bytes) : anchored S = true ↔ ∃ rest, S = magic ++ rest := by
  unfold anchored
  rw [beq_iff_eq]
  constructor
  · intro h; exact ⟨S.drop 3, by rw [← h, List.take_append_drop]⟩
  · rintro ⟨rest, rfl⟩; rfl

@[simp] theorem anchored_magic (rest : Bytes) : anchored (magic ++ rest) = true := (anchored_iff _).2 ⟨rest, rfl⟩

theorem anchored_append {S : Bytes} (h : anchored S = true) (X : Bytes) : anchored (S ++ X) = true := by
  obtain ⟨rest, rfl⟩ := (anchored_iff S).1 h
  rw [List.append_assoc]; exact anchored_magic _

theorem length_of_anchored {S : Bytes} (h : anchored S = true) : 3 ≤ S.length := by
  obtain ⟨rest, rfl⟩ := (anchored_iff S).1 h
  simp [magic]

theorem anchored_eq_of_take {S T : Bytes} (h : S.take 3 = T.take 3) : anchored S = anchored T := by
  unfold anchored; rw [h]

/-! ### The searches -/

theorem findAnchor_eq_none (B : Bytes) : findAnchor B = none ↔ ∀ k, anchored (B.drop k) = false := by
  induction B with
  | nil => simp [findAnchor]; decide
  | cons b t ih =>
    unfold findAnchor
    by_cases h : anchored (b :: t) = true
    · rw [if_pos h]
      refine iff_of_false (by simp) fun hk => ?_
      have := hk 0; simp [h] at this
    · rw [if_neg h, Option.map_eq_none_iff, ih]
      refine ⟨fun hk k => ?_, fun hk k => by simpa using hk (k + 1)⟩
      cases k with
      | zero => simpa using h
      | succ k => simpa using hk k

theorem findAnchor_eq_some (B : Bytes) (k : Nat) :
    findAnchor B = some k ↔ anchored (B.drop k) = true ∧ ∀ j < k, anchored (B.drop j) = false := by
  induction B generalizing k with
  | nil => simp [findAnchor, show anchored [] = false by decide]
  | cons b t ih =>
    unfold findAnchor
    by_cases h : anchored (b :: t) = true
    · rw [if_pos h]
      cases k with
      | zero => simp [h]
      | succ k =>
        refine iff_of_false (by simp) fun hk => ?_
        have := hk.2 0 (by omega); simp [h] at this
    · rw [if_neg h]
      cases k with
      | zero => simp [h]
      | succ k =>
        simp only [Option.map_eq_some_iff, Nat.add_right_cancel_iff, exists_eq_right, ih, List.drop_succ_cons]
        refine and_congr_right fun _ => ⟨fun hj j hlt => ?_, fun hj j hlt => by simpa using hj (j + 1) (by omega)⟩
        cases j with
        | zero => simpa using h
        | succ j => simpa using hj j (by omega)

theorem findLF_eq_none (B : Bytes) : findLF B = none ↔ lf ∉ B := by
  induction B with
  | nil => simp [findLF]
  | cons b t ih =>
    unfold findLF
    by_cases h : b = lf
    · rw [if_pos h]; simp [h]
    · rw [if_neg h, Option.map_eq_none_iff, ih]
      simp [Ne.symm h]

theorem findLF_eq_some (B : Bytes) (j : Nat) : findLF B = some j ↔ B[j]? = some lf ∧ lf ∉ B.take j := by
  induction B generalizing j with
  | nil => simp [findLF]
  | cons b t ih =>
    unfold findLF
    by_cases h : b = lf
    · rw [if_pos h]
      cases j with
      | zero => simp [h]
      | succ j => simp [h]
    · rw [if_neg h]
      cases j with
      | zero => simp [h]
      | succ j => simp [ih, Ne.symm h]

/-! ### The trim -/

theorem trim_sublist (S : Bytes) : (trim S).Sublist S := by
  unfold trim
  have h := (List.dropWhile_sublist (l := (S.dropWhile isWs).reverse) isWs).reverse
  rw [List.reverse_reverse] at h
  exact h.trans (List.dropWhile_sublist isWs)

/-- Trim cuts a run of `WS` bytes off each end (R99). -/
theorem trim_split (S : Bytes) : ∃ a z, S = a ++ trim S ++ z ∧ (∀ b ∈ a, isWs b = true) ∧ (∀ b ∈ z, isWs b = true) := by
  have h1 := List.takeWhile_append_dropWhile (p := isWs) (l := S)
  have h2 := congrArg List.reverse (List.takeWhile_append_dropWhile (p := isWs) (l := (S.dropWhile isWs).reverse))
  rw [List.reverse_append, List.reverse_reverse] at h2
  refine ⟨S.takeWhile isWs, (((S.dropWhile isWs).reverse).takeWhile isWs).reverse, ?_, ?_, ?_⟩
  · rw [List.append_assoc]; unfold trim; rw [h2, h1]
  · intro b hb; exact List.mem_takeWhile_imp hb
  · intro b hb; exact List.mem_takeWhile_imp (List.mem_reverse.1 hb)

end Sys2Proof
end

