-- ==== Sys2Proof/Laws/Codec.lean ====
section
/-! SUPPORT. The codec's spec lemmas: what `tryDecode` and `decode` give for a buffer written as anchor, length and rest, and
that each depends on the declared frame alone. -/

namespace Sys2Proof.Machine

@[simp] theorem slice_zero (S : Bytes) (n : Nat) : slice S 0 n = S.take n := by simp [slice]

@[simp] theorem slice_full (S : Bytes) : slice S 0 S.length = S := by simp

theorem magic_append (rest : Bytes) : magic ++ rest = 0x43 :: 0x4D :: 0x3E :: rest := rfl

@[simp] theorem lenField_magic (a b : Byte) (body : Bytes) : lenField (magic ++ a :: b :: body) = be16 a b := rfl

theorem payloadOf_magic (a b : Byte) (body : Bytes) (L : Half) :
    payloadOf (magic ++ a :: b :: body) L = body.take L.toNat := by
  simp [payloadOf, slice, hdrLen, frameSize, magic]

theorem raw_magic (a b : Byte) (body : Bytes) (L : Half) :
    slice (magic ++ a :: b :: body) 0 (frameSize L) = magic ++ a :: b :: body.take L.toNat := by
  have : frameSize L = L.toNat + 5 := by simp [frameSize, hdrLen]; omega
  simp [this, magic]

/-- The CRC check in the form of R77. -/
theorem crc_passes_iff {P : Bytes} {L : Half} (hL : P.length = L.toNat) (h1 : 1 ≤ L.toNat) :
    crcCalc P L = crcRx P L ↔ xorfold P = 0 := by
  have hne : P ≠ [] := by rintro rfl; simp at hL; omega
  have hcalc : crcCalc P L = xorfold P.dropLast := by
    simp [crcCalc, crc, List.dropLast_eq_take, ← hL]
  have hrx : crcRx P L = P.getLast hne := by
    have : P.length - 1 < P.length := by omega
    simp [crcRx, ← hL, List.getLast_eq_getElem, this]
  rw [hcalc, hrx]
  conv_rhs => rw [← List.dropLast_append_getLast hne]
  rw [xorfold_append, xorfold_cons, xorfold_nil]
  rw [show P.getLast hne ^^^ 0 = P.getLast hne from BitVec.xor_zero]
  exact byte_xor_eq_zero.symm

/-- What a complete span decodes to: by length, then by CRC (R81, R141). -/
def spanOutcome (L : Half) (P raw : Bytes) : DecodeOut :=
  if L.toNat < ctrlLen then .invalid .tooShort L (frameSize L)
  else if xorfold P ≠ 0 then .invalid .crcMismatch L (frameSize L)
  else .ok (frameFrom raw P L) (frameSize L)

theorem frameFrom_raw {S T P : Bytes} {L : Half} (h : S.take (frameSize L) = T.take (frameSize L)) :
    frameFrom S P L = frameFrom T P L := by
  unfold frameFrom; simp only [slice_zero, h]

/-- `tryDecode` on an anchored buffer whose length field is present. -/
theorem tryDecode_magic (a b : Byte) (body : Bytes) :
    tryDecode (magic ++ a :: b :: body) =
      if body.length < (be16 a b).toNat then .incomplete
      else spanOutcome (be16 a b) (body.take (be16 a b).toNat) (magic ++ a :: b :: body.take (be16 a b).toNat) := by
  have hlen : (magic ++ a :: b :: body).length = body.length + 5 := by simp [magic]
  have h5 : ¬ (magic ++ a :: b :: body).length < hdrLen := by rw [hlen]; simp [hdrLen]
  unfold tryDecode
  rw [anchored_magic]
  simp only [Bool.not_true, Bool.false_eq_true, if_false, h5, lenField_magic, payloadOf_magic]
  have hiff : ((magic ++ a :: b :: body).length < frameSize (be16 a b)) ↔ body.length < (be16 a b).toNat := by
    rw [hlen]; simp only [frameSize, hdrLen]; omega
  by_cases h : body.length < (be16 a b).toNat
  · rw [if_pos (hiff.2 h), if_pos h]
  · rw [if_neg (mt hiff.1 h), if_neg h]
    unfold spanOutcome
    by_cases h6 : (be16 a b).toNat < ctrlLen
    · rw [if_pos h6, if_pos h6]
    · have hP : (body.take (be16 a b).toNat).length = (be16 a b).toNat := by
        rw [List.length_take]; omega
      have hc := crc_passes_iff hP (by simp only [ctrlLen] at h6; omega)
      rw [if_neg h6, if_neg h6]
      by_cases hx : xorfold (body.take (be16 a b).toNat) = 0
      · have h1 := hc.2 hx
        simp only [ne_eq, h1, hx, not_true_eq_false, if_false]
        congr 1
        refine frameFrom_raw ?_
        have := raw_magic a b body (be16 a b)
        rw [slice_zero] at this
        have h2 := raw_magic a b (body.take (be16 a b).toNat) (be16 a b)
        rw [slice_zero, List.take_take, Nat.min_self] at h2
        rw [this, h2]
      · have h1 := mt hc.1 hx
        simp only [ne_eq, h1, hx, not_false_eq_true, if_true]

/-- `tryDecode` on the anchor and at most one length byte. -/
theorem tryDecode_short {rest : Bytes} (h : rest.length < 2) : tryDecode (magic ++ rest) = .incomplete := by
  have hlen : (magic ++ rest).length < hdrLen := by simp [magic, hdrLen]; omega
  unfold tryDecode
  rw [anchored_magic, if_neg (by simp), if_pos hlen]

theorem tryDecode_misaligned_iff (S : Bytes) : tryDecode S = .misaligned ↔ anchored S = false := by
  unfold tryDecode
  cases h : anchored S with
  | false => simp
  | true =>
    simp only [Bool.not_true, Bool.false_eq_true, if_false]
    split_ifs <;> simp

/-- An anchored buffer that decodes to something has its length field and its whole frame. -/
theorem complete_of_decoded {S : Bytes} (h : anchored S = true) (hi : tryDecode S ≠ .incomplete) :
    ∃ a b body, S = magic ++ a :: b :: body ∧ (be16 a b).toNat ≤ body.length ∧
      tryDecode S = spanOutcome (be16 a b) (body.take (be16 a b).toNat) (magic ++ a :: b :: body.take (be16 a b).toNat) := by
  obtain ⟨rest, rfl⟩ := (anchored_iff S).1 h
  match rest with
  | [] => exact absurd (tryDecode_short (by simp)) hi
  | [_] => exact absurd (tryDecode_short (by simp)) hi
  | a :: b :: body =>
    rw [tryDecode_magic] at hi ⊢
    split_ifs at hi ⊢ with hc
    · exact absurd rfl hi
    · exact ⟨a, b, body, rfl, by omega, rfl⟩

/-- What a decode consumes (R92): the declared frame, which is present. -/
theorem tryDecode_consumes {S : Bytes} :
    (∀ f n, tryDecode S = .ok f n → n = frameSize (lenField S) ∧ n ≤ S.length ∧ f.raw = S.take n ∧ 11 ≤ n) ∧
    (∀ r L n, tryDecode S = .invalid r L n → L = lenField S ∧ n = frameSize L ∧ n ≤ S.length) := by
  constructor
  · intro f n h
    have ha : anchored S = true := by
      by_contra hn
      rw [(tryDecode_misaligned_iff S).2 (by simpa using hn)] at h; cases h
    obtain ⟨a, b, body, rfl, hle, he⟩ := complete_of_decoded ha (by simp [h])
    rw [h] at he
    unfold spanOutcome at he
    split_ifs at he with h6 hx
    obtain ⟨rfl, rfl⟩ := DecodeOut.ok.inj he
    have hr := raw_magic a b body (be16 a b)
    have h2 := raw_magic a b (body.take (be16 a b).toNat) (be16 a b)
    rw [slice_zero, List.take_take, Nat.min_self] at h2
    rw [slice_zero] at hr
    refine ⟨rfl, ?_, ?_, ?_⟩
    · simp [frameSize, hdrLen, magic]; omega
    · unfold frameFrom; rw [slice_zero, h2, hr]; split <;> rfl
    · simp only [ctrlLen] at h6; simp only [frameSize, hdrLen]; omega
  · intro r L n h
    have ha : anchored S = true := by
      by_contra hn
      rw [(tryDecode_misaligned_iff S).2 (by simpa using hn)] at h; cases h
    obtain ⟨a, b, body, rfl, hle, he⟩ := complete_of_decoded ha (by simp [h])
    rw [h] at he
    unfold spanOutcome at he
    split_ifs at he with h6 hx <;>
    · obtain ⟨rfl, rfl, rfl⟩ := DecodeOut.invalid.inj he
      refine ⟨rfl, rfl, ?_⟩
      simp [frameSize, hdrLen, magic]; omega

/-- Bytes after a decoded frame do not change its outcome (R94). -/
theorem tryDecode_append {S : Bytes} (h : anchored S = true) (hi : tryDecode S ≠ .incomplete) (X : Bytes) :
    tryDecode (S ++ X) = tryDecode S := by
  obtain ⟨a, b, body, rfl, hle, he⟩ := complete_of_decoded h hi
  rw [he]
  have : magic ++ a :: b :: body ++ X = magic ++ a :: b :: (body ++ X) := by simp [magic]
  rw [this, tryDecode_magic, if_neg (by simp; omega), List.take_append_of_le_length hle]

/-- The declared frame alone gives the outcome (R93). -/
theorem tryDecode_take {S : Bytes} (h : anchored S = true) (hi : tryDecode S ≠ .incomplete) :
    tryDecode (S.take (frameSize (lenField S))) = tryDecode S := by
  obtain ⟨a, b, body, rfl, hle, he⟩ := complete_of_decoded h hi
  have hr := raw_magic a b body (be16 a b)
  rw [slice_zero] at hr
  rw [lenField_magic, hr, he, tryDecode_magic, List.take_take, Nat.min_self, if_neg (by simp; omega)]

end Sys2Proof.Machine
end

