-- ==== Sys2Proof/Laws/State.lean ====
section
/-! SUPPORT. One lemma per field per update of the state, so that no proof unfolds a record update. -/

namespace Sys2Proof.Machine

@[simp] theorem State.withBlk_par (s : State) (b : Block) : (s.withBlk b).par = s.par := rfl
@[simp] theorem State.withBlk_cfg (s : State) (b : Block) : (s.withBlk b).cfg = s.cfg := rfl
@[simp] theorem State.withBlk_blk (s : State) (b : Block) : (s.withBlk b).blk = b := rfl
@[simp] theorem State.withBlk_cyc (s : State) (b : Block) : (s.withBlk b).cyc = s.cyc := rfl
@[simp] theorem State.withBlk_env (s : State) (b : Block) : (s.withBlk b).env = s.env := rfl
@[simp] theorem State.withCyc_par (s : State) (c : Cyc) : (s.withCyc c).par = s.par := rfl
@[simp] theorem State.withCyc_cfg (s : State) (c : Cyc) : (s.withCyc c).cfg = s.cfg := rfl
@[simp] theorem State.withCyc_blk (s : State) (c : Cyc) : (s.withCyc c).blk = s.blk := rfl
@[simp] theorem State.withCyc_cyc (s : State) (c : Cyc) : (s.withCyc c).cyc = c := rfl
@[simp] theorem State.withCyc_env (s : State) (c : Cyc) : (s.withCyc c).env = s.env := rfl
@[simp] theorem State.withStim_par (s : State) (l : List Stim) : (s.withStim l).par = s.par := rfl
@[simp] theorem State.withStim_cfg (s : State) (l : List Stim) : (s.withStim l).cfg = s.cfg := rfl
@[simp] theorem State.withStim_blk (s : State) (l : List Stim) : (s.withStim l).blk = s.blk := rfl
@[simp] theorem State.withStim_cyc (s : State) (l : List Stim) : (s.withStim l).cyc = s.cyc := rfl
@[simp] theorem State.withStim_stim (s : State) (l : List Stim) : (s.withStim l).env.stim = l := rfl
@[simp] theorem State.withStim_popped (s : State) (l : List Stim) : (s.withStim l).env.popped = s.env.popped := rfl
@[simp] theorem State.withStim_result (s : State) (l : List Stim) : (s.withStim l).env.result = s.env.result := rfl
@[simp] theorem State.withResult_par (s : State) (r : CallResult) : (s.withResult r).par = s.par := rfl
@[simp] theorem State.withResult_cfg (s : State) (r : CallResult) : (s.withResult r).cfg = s.cfg := rfl
@[simp] theorem State.withResult_blk (s : State) (r : CallResult) : (s.withResult r).blk = s.blk := rfl
@[simp] theorem State.withResult_cyc (s : State) (r : CallResult) : (s.withResult r).cyc = s.cyc := rfl
@[simp] theorem State.withResult_stim (s : State) (r : CallResult) : (s.withResult r).env.stim = s.env.stim := rfl
@[simp] theorem State.withResult_popped (s : State) (r : CallResult) : (s.withResult r).env.popped = s.env.popped := rfl
@[simp] theorem State.withResult_result (s : State) (r : CallResult) : (s.withResult r).env.result = r := rfl
@[simp] theorem State.receive_par (s : State) (m : Msg) : (s.receive m).par = s.par := rfl
@[simp] theorem State.receive_cfg (s : State) (m : Msg) : (s.receive m).cfg = s.cfg := rfl
@[simp] theorem State.receive_blk (s : State) (m : Msg) : (s.receive m).blk = s.blk := rfl
@[simp] theorem State.receive_cyc (s : State) (m : Msg) : (s.receive m).cyc = s.cyc := rfl
@[simp] theorem State.receive_stim (s : State) (m : Msg) : (s.receive m).env.stim = s.env.stim := rfl
@[simp] theorem State.receive_popped (s : State) (m : Msg) : (s.receive m).env.popped = s.env.popped ++ [m] := rfl
@[simp] theorem State.receive_result (s : State) (m : Msg) : (s.receive m).env.result = s.env.result := rfl

@[simp] theorem Block.drop_B (n : Nat) (k : Block) : (k.drop n).B = k.B.drop n := rfl
@[simp] theorem Block.drop_OQ (n : Nat) (k : Block) : (k.drop n).OQ = k.OQ := rfl
@[simp] theorem Block.drop_eng (n : Nat) (k : Block) : (k.drop n).eng = k.eng := rfl
@[simp] theorem Block.drop_ovf (n : Nat) (k : Block) : (k.drop n).ovf = k.ovf := rfl
@[simp] theorem Block.append_B (b : Byte) (k : Block) : (k.append b).B = k.B ++ [b] := rfl
@[simp] theorem Block.append_OQ (b : Byte) (k : Block) : (k.append b).OQ = k.OQ := rfl
@[simp] theorem Block.append_eng (b : Byte) (k : Block) : (k.append b).eng = k.eng := rfl
@[simp] theorem Block.append_ovf (b : Byte) (k : Block) : (k.append b).ovf = k.ovf := rfl
@[simp] theorem Block.emit_B (m : Msg) (k : Block) : (k.emit m).B = k.B := rfl
@[simp] theorem Block.emit_OQ (m : Msg) (k : Block) : (k.emit m).OQ = k.OQ ++ [m] := rfl
@[simp] theorem Block.emit_eng (m : Msg) (k : Block) : (k.emit m).eng = k.eng := rfl
@[simp] theorem Block.emit_ovf (m : Msg) (k : Block) : (k.emit m).ovf = k.ovf := rfl
@[simp] theorem Block.restart_B (k : Block) : k.restart.B = [] := rfl
@[simp] theorem Block.restart_OQ (k : Block) : k.restart.OQ = k.OQ := rfl
@[simp] theorem Block.restart_eng (k : Block) : k.restart.eng = .run := rfl
@[simp] theorem Block.restart_ovf (k : Block) : k.restart.ovf = false := rfl
@[simp] theorem Block.fatal_B (k : Block) : k.fatal.B = k.B := rfl
@[simp] theorem Block.fatal_OQ (k : Block) : k.fatal.OQ = k.OQ := rfl
@[simp] theorem Block.fatal_eng (k : Block) : k.fatal.eng = .fatal := rfl
@[simp] theorem Block.fatal_ovf (k : Block) : k.fatal.ovf = k.ovf := rfl
@[simp] theorem Block.stop_B (k : Block) : k.stop.B = k.B := by unfold Block.stop; split <;> rfl
@[simp] theorem Block.stop_OQ (k : Block) : k.stop.OQ = k.OQ := by unfold Block.stop; split <;> rfl
@[simp] theorem Block.stop_ovf (k : Block) : k.stop.ovf = k.ovf := by unfold Block.stop; split <;> rfl
theorem Block.stop_eng (k : Block) : k.stop.eng = if k.eng = .run then .stopped else k.eng := by
  unfold Block.stop; split <;> rfl
@[simp] theorem Block.reset_B : Block.reset.B = [] := rfl
@[simp] theorem Block.reset_OQ : Block.reset.OQ = [] := rfl
@[simp] theorem Block.reset_eng : Block.reset.eng = .run := rfl
@[simp] theorem Block.reset_ovf : Block.reset.ovf = false := rfl

@[simp] theorem Cyc.startDrain_busy (cfg : Config) (n : Nat) (c : Cyc) :
    (c.startDrain cfg n).busy = cfg.drainLatency c.tick := rfl
@[simp] theorem Cyc.startDrain_unseen (cfg : Config) (n : Nat) (c : Cyc) : (c.startDrain cfg n).unseen = n := rfl
@[simp] theorem Cyc.startDrain_seenIn (cfg : Config) (n : Nat) (c : Cyc) :
    (c.startDrain cfg n).seenIn = min (cfg.emitLatency c.tick) (cfg.drainLatency c.tick) := rfl
@[simp] theorem Cyc.startDrain_pendReconnect (cfg : Config) (n : Nat) (c : Cyc) :
    (c.startDrain cfg n).pendReconnect = c.pendReconnect := rfl
@[simp] theorem Cyc.startDrain_pendErr (cfg : Config) (n : Nat) (c : Cyc) :
    (c.startDrain cfg n).pendErr = c.pendErr := rfl
@[simp] theorem Cyc.startDrain_pendCancel (cfg : Config) (n : Nat) (c : Cyc) :
    (c.startDrain cfg n).pendCancel = c.pendCancel := rfl
@[simp] theorem Cyc.startDrain_tick (cfg : Config) (n : Nat) (c : Cyc) : (c.startDrain cfg n).tick = c.tick + 1 := rfl

@[simp] theorem State.resetWith_par (par : Params) : (State.resetWith par).par = par := rfl
@[simp] theorem State.resetWith_cfg (par : Params) : (State.resetWith par).cfg = par.config := rfl
@[simp] theorem State.resetWith_blk (par : Params) : (State.resetWith par).blk = Block.reset := rfl
@[simp] theorem State.resetWith_cyc (par : Params) : (State.resetWith par).cyc = Cyc.reset := rfl
@[simp] theorem State.resetWith_env (par : Params) : (State.resetWith par).env = Env.start := rfl

@[simp] theorem Params.config_bufCap (par : Params) : par.config.bufCap = par.bufCap := rfl
@[simp] theorem State.cfg_bufCap (s : State) : s.cfg.bufCap = s.par.bufCap := rfl

/-- A listed depth is the depth (R6). -/
theorem Params.config_outDepth {par : Params} {d : Nat} (h : par.outDepth = some d) : par.config.outDepth = d := by
  simp [Params.config, h]

/-- Which parameters are legal: an `OPEN` depth is, whatever the free value. -/
theorem Params.legal_iff (par : Params) :
    par.config.Legal ↔ (∀ c, par.bufCap = some c → 65540 ≤ c) ∧ ∀ d, par.outDepth = some d → 1 ≤ d := by
  constructor
  · rintro ⟨h1, h2⟩
    refine ⟨h1, fun d hd => ?_⟩
    rwa [Params.config_outDepth hd] at h2
  · rintro ⟨h1, h2⟩
    refine ⟨h1, ?_⟩
    cases hd : par.outDepth with
    | none => simp [Params.config, hd]
    | some d => rw [Params.config_outDepth hd]; exact h2 d hd

/-- This hardware's parameters are legal, whatever the free value of `OUT_DEPTH` is (R6). -/
theorem Params.hw_legal : Params.hw.config.Legal := by simp [Params.legal_iff, Params.hw]

/-- `|B| < BUF_CAP` (R6). -/
theorem belowCap_iff (cfg : Config) (n : Nat) : belowCap cfg n = true ↔ ∀ c, cfg.bufCap = some c → n < c := by
  unfold belowCap; cases cfg.bufCap <;> simp

/-- `|B| >= BUF_CAP`, which a finite capacity alone allows (R108). -/
theorem belowCap_eq_false_iff (cfg : Config) (n : Nat) : belowCap cfg n = false ↔ ∃ c, cfg.bufCap = some c ∧ c ≤ n := by
  unfold belowCap; cases cfg.bufCap <;> simp

end Sys2Proof.Machine
end

