-- ==== Sys2Proof/Laws/Drain.lean ====
section
/-! SUPPORT. The drain iteration: which branch a buffer selects, what each branch does, everything an iteration can do
(`drainStep_cases`), and the loop. -/

namespace Sys2Proof.Machine

/-! ### The end of an iteration -/

/-- An iteration that emits nothing, or whose message finds room, takes place. -/
theorem commit_fits {cfg : Config} {m : Option Msg} {blk : Block} (h : m = none ∨ blk.OQ.length < cfg.outDepth) (n : Nat) :
    blk.commit cfg m n = ({ blk with B := blk.B.drop n, OQ := blk.OQ ++ m.toList }, .moved) := by
  cases m with
  | none => simp [Block.commit, Block.drop]
  | some msg =>
    have hr : blk.OQ.length < cfg.outDepth := by simpa using h
    simp [Block.commit, Block.room, hr, Block.drop, Block.emit]

/-- An iteration whose message finds no room does not take place (R110). -/
theorem commit_full {cfg : Config} {msg : Msg} {blk : Block} (h : cfg.outDepth ≤ blk.OQ.length) (n : Nat) :
    blk.commit cfg (some msg) n = (blk, .blocked) := by
  have : ¬ blk.OQ.length < cfg.outDepth := by omega
  simp [Block.commit, Block.room, this]

/-- Everything `commit` can do. -/
theorem commit_cases (cfg : Config) (m : Option Msg) (n : Nat) (blk : Block) :
    (m ≠ none ∧ blk.commit cfg m n = (blk, .blocked)) ∨
    blk.commit cfg m n = ({ blk with B := blk.B.drop n, OQ := blk.OQ ++ m.toList }, .moved) := by
  cases m with
  | none => exact .inr (commit_fits (.inl rfl) n)
  | some msg =>
    by_cases h : blk.OQ.length < cfg.outDepth
    · exact .inr (commit_fits (.inr h) n)
    · exact .inl ⟨by simp, commit_full (by omega) n⟩

theorem textMsg_eq_none (S : Bytes) : textMsg S = none ↔ trim S = [] := by
  unfold textMsg; split <;> simp_all

theorem textMsg_toList (S : Bytes) : (textMsg S).toList = if trim S = [] then [] else [.text (trim S)] := by
  unfold textMsg; split <;> simp

/-! ### The branch a buffer selects -/

theorem findAnchor_eq_zero (B : Bytes) : findAnchor B = some 0 ↔ anchored B = true := by
  rw [findAnchor_eq_some]; simp

theorem ne_nil_of_findAnchor {B : Bytes} {k : Nat} (h : findAnchor B = some k) : B.length ≠ 0 := by
  intro h0
  rw [List.eq_nil_of_length_eq_zero h0] at h; cases h

theorem ne_nil_of_findLF {B : Bytes} {j : Nat} (h : findLF B = some j) : B.length ≠ 0 := by
  intro h0
  rw [List.eq_nil_of_length_eq_zero h0] at h; cases h

theorem selectBranch_nil (cfg : Config) : selectBranch cfg [] = .empty := rfl

theorem selectBranch_prefix {cfg : Config} {B : Bytes} {k : Nat} (h : findAnchor B = some k) (hk : 0 < k) :
    selectBranch cfg B = .textRun := by
  obtain ⟨k, rfl⟩ : ∃ k', k = k' + 1 := ⟨k - 1, by omega⟩
  simp [selectBranch, ne_nil_of_findAnchor h, h]

theorem selectBranch_anchored {cfg : Config} {B : Bytes} (h : anchored B = true) :
    selectBranch cfg B =
      match tryDecode B with
      | .ok _ _ => .frameOk
      | .invalid _ _ _ => .frameInv
      | .incomplete | .misaligned => .frameWait := by
  have h0 := (findAnchor_eq_zero B).2 h
  unfold selectBranch
  rw [if_neg (ne_nil_of_findAnchor h0), h0]
  all_goals (cases tryDecode B <;> rfl)

theorem selectBranch_line {cfg : Config} {B : Bytes} {j : Nat} (h : findAnchor B = none) (hj : findLF B = some j) :
    selectBranch cfg B = .line := by
  simp [selectBranch, ne_nil_of_findLF hj, h, hj]

theorem selectBranch_text {cfg : Config} {B : Bytes} (h0 : B ≠ []) (h : findAnchor B = none) (hj : findLF B = none) :
    selectBranch cfg B = if belowCap cfg B.length then .wait else .overflow := by
  simp [selectBranch, h0, h, hj]

/-! ### What an iteration does, branch by branch -/

section
variable {cfg : Config} {blk : Block}

theorem drainStep_nil (h : blk.B = []) : drainStep cfg blk = (blk, .quiet) := by
  simp [drainStep, h, selectBranch_nil, branchEffect, branchEmpty]

theorem drainStep_prefix {k : Nat} (h : findAnchor blk.B = some k) (hk : 0 < k) :
    drainStep cfg blk = blk.commit cfg (textMsg (blk.B.take k)) k := by
  simp [drainStep, selectBranch_prefix h hk, branchEffect, branchPrefix, h]

theorem drainStep_frameWait (h : anchored blk.B = true) (hd : tryDecode blk.B = .incomplete) :
    drainStep cfg blk = (blk, .quiet) := by
  simp [drainStep, selectBranch_anchored h, hd, branchEffect, branchFrameWait]

theorem drainStep_frameOk {f : Frame} {n : Nat} (h : anchored blk.B = true) (hd : tryDecode blk.B = .ok f n) :
    drainStep cfg blk = blk.commit cfg (some (.binary f)) n := by
  simp [drainStep, selectBranch_anchored h, hd, branchEffect, branchFrameOk]

theorem drainStep_frameInv {r : Reason} {L : Half} {n : Nat} (h : anchored blk.B = true)
    (hd : tryDecode blk.B = .invalid r L n) :
    drainStep cfg blk = blk.commit cfg (some (.error r L (blk.B.take n))) n := by
  simp [drainStep, selectBranch_anchored h, hd, branchEffect, branchFrameInv, Block.reportError]

theorem drainStep_line {j : Nat} (h : findAnchor blk.B = none) (hj : findLF blk.B = some j) :
    drainStep cfg blk = blk.commit cfg (textMsg (blk.B.take j)) (j + 1) := by
  simp [drainStep, selectBranch_line h hj, branchEffect, branchLine, hj]

theorem drainStep_wait (h0 : blk.B ≠ []) (h : findAnchor blk.B = none) (hj : findLF blk.B = none)
    (hc : belowCap cfg blk.B.length = true) : drainStep cfg blk = (blk, .quiet) := by
  simp [drainStep, selectBranch_text h0 h hj, hc, branchEffect, branchWait]

theorem drainStep_ovf (h0 : blk.B ≠ []) (h : findAnchor blk.B = none) (hj : findLF blk.B = none)
    (hc : belowCap cfg blk.B.length = false) : drainStep cfg blk = branchOvf cfg blk := by
  simp [drainStep, selectBranch_text h0 h hj, hc, branchEffect]

/-- The block after the overflow flush (R108). -/
def flushed (blk : Block) : Block where
  B   := blk.B.drop (blk.B.length - 2)
  OQ  := blk.OQ ++ (textMsg (blk.B.take (blk.B.length - 2))).toList
  eng := blk.eng
  ovf := true

/-- The overflow flush: it takes place and sets `ovf`, or its message has no room. -/
theorem branchOvf_cases (cfg : Config) (blk : Block) :
    (textMsg (blk.B.take (blk.B.length - 2)) ≠ none ∧ branchOvf cfg blk = (blk, .blocked)) ∨
    branchOvf cfg blk = (flushed blk, .moved) := by
  rcases commit_cases cfg (textMsg (blk.B.take (blk.B.length - 2))) (blk.B.length - 2) blk with ⟨hm, h⟩ | h
  · exact .inl ⟨hm, by simp [branchOvf, h]⟩
  · exact .inr (by simp [branchOvf, h, flushed])

theorem branchOvf_fits (h : textMsg (blk.B.take (blk.B.length - 2)) = none ∨ blk.OQ.length < cfg.outDepth) :
    branchOvf cfg blk = (flushed blk, .moved) := by
  simp [branchOvf, commit_fits h, flushed]

theorem branchOvf_full {m : Msg} (hm : textMsg (blk.B.take (blk.B.length - 2)) = some m)
    (h : cfg.outDepth ≤ blk.OQ.length) : branchOvf cfg blk = (blk, .blocked) := by
  simp [branchOvf, hm, commit_full h]

end

/-- The cases of a buffer (R101): the condition of one of the branches holds. -/
theorem buffer_cases (cfg : Config) (B : Bytes) :
    B = [] ∨ (∃ k, 0 < k ∧ findAnchor B = some k) ∨
    (anchored B = true ∧ tryDecode B = .incomplete) ∨
    (anchored B = true ∧ ∃ f n, tryDecode B = .ok f n) ∨
    (anchored B = true ∧ ∃ r L n, tryDecode B = .invalid r L n) ∨
    (findAnchor B = none ∧ ∃ j, findLF B = some j) ∨
    (B ≠ [] ∧ findAnchor B = none ∧ findLF B = none ∧ belowCap cfg B.length = true) ∨
    (B ≠ [] ∧ findAnchor B = none ∧ findLF B = none ∧ belowCap cfg B.length = false) := by
  by_cases h0 : B = []
  · exact .inl h0
  cases ha : findAnchor B with
  | some k =>
    cases k with
    | succ k => exact .inr (.inl ⟨k + 1, by omega, rfl⟩)
    | zero =>
      have h := (findAnchor_eq_zero B).1 ha
      cases hd : tryDecode B with
      | misaligned => rw [tryDecode_misaligned_iff, h] at hd; cases hd
      | incomplete => simp [h]
      | ok f n => simp [h]
      | invalid r L n => simp [h]
  | none =>
    cases hj : findLF B with
    | some j => simp
    | none => cases hc : belowCap cfg B.length <;> simp [h0]

/-- Everything an iteration can do: nothing, or drop `n` bytes and emit at most one message, the overflow flush setting `ovf`. -/
theorem drainStep_cases (cfg : Config) (blk : Block) :
    drainStep cfg blk = (blk, .quiet) ∨ drainStep cfg blk = (blk, .blocked) ∨
    ∃ n m o, drainStep cfg blk =
        ({ blk with B := blk.B.drop n, OQ := blk.OQ ++ Option.toList m, ovf := o }, .moved) ∧
      (o = blk.ovf ∨ (o = true ∧ selectBranch cfg blk.B = .overflow)) := by
  have key : ∀ m n, drainStep cfg blk = blk.commit cfg m n →
      drainStep cfg blk = (blk, .quiet) ∨ drainStep cfg blk = (blk, .blocked) ∨
      ∃ n m o, drainStep cfg blk =
          ({ blk with B := blk.B.drop n, OQ := blk.OQ ++ Option.toList m, ovf := o }, .moved) ∧
        (o = blk.ovf ∨ (o = true ∧ selectBranch cfg blk.B = .overflow)) := by
    intro m n h
    rcases commit_cases cfg m n blk with ⟨-, hc⟩ | hc
    · exact .inr (.inl (h.trans hc))
    · exact .inr (.inr ⟨n, m, blk.ovf, h.trans hc, .inl rfl⟩)
  rcases buffer_cases cfg blk.B with h | ⟨k, hk, h⟩ | ⟨h, hd⟩ | ⟨h, f, n, hd⟩ | ⟨h, r, L, n, hd⟩ | ⟨h, j, hj⟩ |
    ⟨h0, h, hj, hc⟩ | ⟨h0, h, hj, hc⟩
  · exact .inl (drainStep_nil h)
  · exact key _ _ (drainStep_prefix h hk)
  · exact .inl (drainStep_frameWait h hd)
  · exact key _ _ (drainStep_frameOk h hd)
  · exact key _ _ (drainStep_frameInv h hd)
  · exact key _ _ (drainStep_line h hj)
  · exact .inl (drainStep_wait h0 h hj hc)
  · have hs := drainStep_ovf (cfg := cfg) h0 h hj hc
    rcases branchOvf_cases cfg blk with ⟨-, hb⟩ | hb
    · exact .inr (.inl (hs.trans hb))
    · exact .inr (.inr ⟨_, _, true, hs.trans hb, .inr ⟨rfl, by rw [selectBranch_text h0 h hj, hc]; rfl⟩⟩)

/-- An iteration end that moved. -/
theorem commit_moved {cfg : Config} {m : Option Msg} {n : Nat} {blk blk' : Block} (h : blk.commit cfg m n = (blk', .moved)) :
    blk' = { blk with B := blk.B.drop n, OQ := blk.OQ ++ m.toList } := by
  rcases commit_cases cfg m n blk with ⟨-, hc⟩ | hc
  · rw [hc] at h; cases h
  · rw [hc] at h; cases h; rfl

/-- Everything a moving iteration can be. -/
theorem drainStep_moved {cfg : Config} {blk blk' : Block} (h : drainStep cfg blk = (blk', .moved)) :
   (∃ k, 0 < k ∧ findAnchor blk.B = some k ∧
     blk' = { blk with B := blk.B.drop k, OQ := blk.OQ ++ (textMsg (blk.B.take k)).toList }) ∨
   (∃ f n, anchored blk.B = true ∧ tryDecode blk.B = .ok f n ∧
     blk' = { blk with B := blk.B.drop n, OQ := blk.OQ ++ [.binary f] }) ∨
   (∃ r L n, anchored blk.B = true ∧ tryDecode blk.B = .invalid r L n ∧
     blk' = { blk with B := blk.B.drop n, OQ := blk.OQ ++ [.error r L (blk.B.take n)] }) ∨
   (∃ j, findAnchor blk.B = none ∧ findLF blk.B = some j ∧
     blk' = { blk with B := blk.B.drop (j+1), OQ := blk.OQ ++ (textMsg (blk.B.take j)).toList }) ∨
   (blk.B ≠ [] ∧ findAnchor blk.B = none ∧ findLF blk.B = none ∧ belowCap cfg blk.B.length = false ∧ blk' = flushed blk) := by
  rcases buffer_cases cfg blk.B with h1 | ⟨k, hk, h1⟩ | ⟨h1, hd⟩ | ⟨h1, f, n, hd⟩ | ⟨h1, r, L, n, hd⟩ | ⟨h1, j, hj⟩ |
    ⟨h0, h1, hj, hc⟩ | ⟨h0, h1, hj, hc⟩
  · rw [drainStep_nil h1] at h; cases h
  · rw [drainStep_prefix h1 hk] at h
    exact .inl ⟨k, hk, h1, commit_moved h⟩
  · rw [drainStep_frameWait h1 hd] at h; cases h
  · rw [drainStep_frameOk h1 hd] at h
    exact .inr (.inl ⟨f, n, h1, hd, commit_moved h⟩)
  · rw [drainStep_frameInv h1 hd] at h
    exact .inr (.inr (.inl ⟨r, L, n, h1, hd, commit_moved h⟩))
  · rw [drainStep_line h1 hj] at h
    exact .inr (.inr (.inr (.inl ⟨j, h1, hj, commit_moved h⟩)))
  · rw [drainStep_wait h0 h1 hj hc] at h; cases h
  · rw [drainStep_ovf h0 h1 hj hc] at h
    rcases branchOvf_cases cfg blk with ⟨-, hb⟩ | hb
    · rw [hb] at h; cases h
    · rw [hb] at h; cases h
      exact .inr (.inr (.inr (.inr ⟨h0, h1, hj, hc, rfl⟩)))

/-- The overflow branch is selected at the capacity only. -/
theorem belowCap_of_overflow {cfg : Config} {B : Bytes} (hs : selectBranch cfg B = .overflow) : belowCap cfg B.length = false := by
  rcases buffer_cases cfg B with h | ⟨k, hk, h⟩ | ⟨h, hd⟩ | ⟨h, f, n, hd⟩ | ⟨h, r, L, n, hd⟩ | ⟨h, j, hj⟩ |
            ⟨h0, h, hj, hc⟩ | ⟨h0, h, hj, hc⟩
  · rw [h, selectBranch_nil] at hs; cases hs
  · rw [selectBranch_prefix h hk] at hs; cases hs
  · rw [selectBranch_anchored h, hd] at hs; cases hs
  · rw [selectBranch_anchored h, hd] at hs; cases hs
  · rw [selectBranch_anchored h, hd] at hs; cases hs
  · rw [selectBranch_line h hj] at hs; cases hs
  · rw [selectBranch_text h0 h hj, hc] at hs; cases hs
  · exact hc

/-! ### The loop -/

theorem drainLoop_stop {cfg : Config} {blk : Block} {r : DrainRes} (h : drainStep cfg blk = (blk, r)) (hr : r ≠ .moved)
    (fuel : Nat) : drainLoop cfg fuel blk = blk := by
  cases fuel with
  | zero => rfl
  | succ n => cases r <;> simp_all [drainLoop]

theorem drainLoop_moved {cfg : Config} {blk blk' : Block} (h : drainStep cfg blk = (blk', .moved)) (fuel : Nat) :
    drainLoop cfg (fuel + 1) blk = drainLoop cfg fuel blk' := by
  simp [drainLoop, h]

/-- One iteration that moves into a block on which the next is quiet is the whole drain. -/
theorem drainToQuiescence_moved {cfg : Config} {blk blk' : Block} {r : DrainRes} (h : drainStep cfg blk = (blk', .moved))
    (h' : drainStep cfg blk' = (blk', r)) (hr : r ≠ .moved) : drainToQuiescence cfg blk = blk' := by
  unfold drainToQuiescence
  rw [drainLoop_moved h, drainLoop_stop h' hr]

theorem drainToQuiescence_quiet {cfg : Config} {blk : Block} {r : DrainRes} (h : drainStep cfg blk = (blk, r))
    (hr : r ≠ .moved) : drainToQuiescence cfg blk = blk := drainLoop_stop h hr _

/-- A property that every moving iteration keeps holds after the loop. -/
theorem drainLoop_induct {cfg : Config} {P : Block → Prop}
    (hstep : ∀ blk blk', P blk → drainStep cfg blk = (blk', .moved) → P blk') :
    ∀ (fuel : Nat) (blk : Block), P blk → P (drainLoop cfg fuel blk)
  | 0, _, h => h
  | fuel + 1, blk, h => by
    rcases drainStep_cases cfg blk with hq | hb | ⟨n, m, o, hm, -⟩
    · rw [drainLoop_stop hq (by simp)]; exact h
    · rw [drainLoop_stop hb (by simp)]; exact h
    · rw [drainLoop_moved hm]; exact drainLoop_induct hstep fuel _ (hstep _ _ h hm)

end Sys2Proof.Machine
end

