-- ==== Sys2Proof/Laws/Accept.lean ====
section
/-! SUPPORT. One byte appended to a quiescent buffer (spec/41_stream_demux.md R114): what the searches and the decode then
find, and what the whole drain does. -/

namespace Sys2Proof.Machine

/-- The byte `b` completes an anchor at the end of `B`. -/
def completesAnchor (B : Bytes) (b : Byte) : Prop := b = 0x3E ∧ 2 ≤ B.length ∧ B.drop (B.length - 2) = [0x43, 0x4D]

theorem anchored_drop_snoc {B : Bytes} (h : findAnchor B = none) (b : Byte) (k : Nat) :
    anchored ((B ++ [b]).drop k) = true ↔ completesAnchor B b ∧ k = B.length - 2 := by
  have hn := (findAnchor_eq_none B).1 h
  constructor
  · intro ha
    have hl := length_of_anchored ha
    simp only [List.length_drop, List.length_append, List.length_singleton] at hl
    have hd : (B ++ [b]).drop k = B.drop k ++ [b] := List.drop_append_of_le_length (by omega)
    by_cases hk : k + 3 ≤ B.length
    · have : anchored ((B ++ [b]).drop k) = anchored (B.drop k) := by
        apply anchored_eq_of_take
        rw [hd, List.take_append_of_le_length (by simp; omega)]
      rw [this, hn k] at ha; cases ha
    · have hk2 : k = B.length - 2 := by omega
      obtain ⟨rest, hr⟩ := (anchored_iff _).1 ha
      rw [hd] at hr
      have hlen : (B.drop k).length = 2 := by simp; omega
      match hB : B.drop k, hlen with
      | [x, y], _ =>
        rw [hB] at hr
        simp only [magic, List.cons_append, List.nil_append, List.cons.injEq] at hr
        obtain ⟨rfl, rfl, rfl, -⟩ := hr
        exact ⟨⟨rfl, by omega, hk2 ▸ hB⟩, hk2⟩
  · rintro ⟨⟨rfl, h2, hB⟩, rfl⟩
    rw [List.drop_append_of_le_length (by omega), hB]
    decide

theorem findAnchor_snoc_completes {B : Bytes} (h : findAnchor B = none) {b : Byte} (hc : completesAnchor B b) :
    findAnchor (B ++ [b]) = some (B.length - 2) := by
  rw [findAnchor_eq_some]
  refine ⟨(anchored_drop_snoc h b _).2 ⟨hc, rfl⟩, fun j hj => ?_⟩
  by_contra hn
  have := ((anchored_drop_snoc h b j).1 (by simpa using hn)).2
  omega

theorem findAnchor_snoc_none {B : Bytes} (h : findAnchor B = none) {b : Byte} (hc : ¬ completesAnchor B b) :
    findAnchor (B ++ [b]) = none := by
  rw [findAnchor_eq_none]
  intro k
  by_contra hn
  exact hc ((anchored_drop_snoc h b k).1 (by simpa using hn)).1

theorem findLF_snoc_lf {B : Bytes} (h : findLF B = none) : findLF (B ++ [lf]) = some B.length := by
  rw [findLF_eq_some]
  refine ⟨by simp, ?_⟩
  rw [List.take_left']
  · exact (findLF_eq_none B).1 h
  · rfl

theorem findLF_snoc_none {B : Bytes} (h : findLF B = none) {b : Byte} (hb : b ≠ lf) : findLF (B ++ [b]) = none := by
  rw [findLF_eq_none] at h ⊢
  simp [h, hb.symm]

theorem not_completes_lf (B : Bytes) : ¬ completesAnchor B lf := fun h => absurd h.1 (by decide)

theorem findAnchor_eq_none_of_drop {B : Bytes} (h : findAnchor B = none) (n : Nat) : findAnchor (B.drop n) = none := by
  rw [findAnchor_eq_none] at h ⊢
  intro k; rw [List.drop_drop]; exact h _

theorem findLF_eq_none_of_drop {B : Bytes} (h : findLF B = none) (n : Nat) : findLF (B.drop n) = none := by
  rw [findLF_eq_none] at h ⊢
  exact fun hm => h (List.mem_of_mem_drop hm)

theorem belowCap_mono {cfg : Config} {m n : Nat} (hmn : m ≤ n) (h : belowCap cfg n = true) : belowCap cfg m = true := by
  unfold belowCap at *
  cases hc : cfg.bufCap with
  | none => rfl
  | some c => rw [hc] at h; simp only [decide_eq_true_eq] at *; omega

/-- Every length below a whole frame is below a legal capacity. -/
theorem belowCap_of_legal {cfg : Config} (hl : cfg.Legal) {n : Nat} (h : n < 65540) : belowCap cfg n = true := by
  unfold belowCap
  cases hc : cfg.bufCap with
  | none => rfl
  | some c =>
    have := hl.bufCap c hc
    simp only [maxFrame, hdrLen, maxLen] at this
    simp only [decide_eq_true_eq]; omega

/-- A length that is not below a legal capacity. -/
theorem length_of_belowCap_false {cfg : Config} (hl : cfg.Legal) {n : Nat} (h : belowCap cfg n = false) : 65540 ≤ n := by
  by_contra hn; rw [belowCap_of_legal hl (by omega)] at h; cases h

/-- What the loop can do to any block: `eng` stays, OQ grows, B shrinks, `ovf` is set at the capacity only. -/
theorem drainToQuiescence_any (cfg : Config) (blk : Block) :
    (drainToQuiescence cfg blk).eng = blk.eng ∧ (∃ new, (drainToQuiescence cfg blk).OQ = blk.OQ ++ new) ∧
    (drainToQuiescence cfg blk).B.length ≤ blk.B.length ∧
    ((drainToQuiescence cfg blk).ovf = blk.ovf ∨ ((drainToQuiescence cfg blk).ovf = true ∧ belowCap cfg blk.B.length = false)) := by
  refine drainLoop_induct (P := fun k => k.eng = blk.eng ∧ (∃ new, k.OQ = blk.OQ ++ new) ∧
    k.B.length ≤ blk.B.length ∧ (k.ovf = blk.ovf ∨ (k.ovf = true ∧ belowCap cfg blk.B.length = false))) ?_ _ _
    ⟨rfl, ⟨[], by simp⟩, le_rfl, .inl rfl⟩
  rintro k k' ⟨h1, ⟨new, h2⟩, h3, h4⟩ hm
  have hsel := hm
  rcases drainStep_cases cfg k with hd | hd | ⟨n, m, o, hd, ho⟩ <;> rw [hd] at hm <;> cases hm
  refine ⟨h1, ⟨new ++ m.toList, by simp [h2]⟩, by simp; omega, ?_⟩
  rcases ho with rfl | ⟨rfl, ho⟩
  · exact h4
  · right; refine ⟨rfl, ?_⟩
    have hb : belowCap cfg k.B.length = false := by
      exact belowCap_of_overflow ho
    cases hc : belowCap cfg blk.B.length with
    | false => rfl
    | true => rw [belowCap_mono h3 hc] at hb; cases hb

/-- The block of a drain that emitted `out` and left `B`. -/
def drained (blk : Block) (B : Bytes) (out : List Msg) (ovf : Bool) : Block where
  B   := B
  OQ  := blk.OQ ++ out
  eng := blk.eng
  ovf := ovf

section
variable {cfg : Config} {blk : Block} {b : Byte}

/-- R114, Q0 and Q1: the line feed ends the line. -/
theorem drain_snoc_lf (ha : findAnchor blk.B = none) (hf : findLF blk.B = none) (hr : blk.OQ.length < cfg.outDepth) :
    drainToQuiescence cfg (blk.append lf) = drained blk [] (textMsg blk.B).toList blk.ovf := by
  have h := drainStep_line (cfg := cfg) (blk := blk.append lf) (findAnchor_snoc_none ha (not_completes_lf _))
    (findLF_snoc_lf hf)
  rw [commit_fits (blk := blk.append _) (.inr hr)] at h
  have h' := drainToQuiescence_moved h (drainStep_nil (by simp)) (by simp)
  rw [h']
  simp [drained]

/-- R114, Q1: the byte that completes an anchor sends the text before it. -/
theorem drain_snoc_anchor (ha : findAnchor blk.B = none) (hc : completesAnchor blk.B b)
    (hr : blk.OQ.length < cfg.outDepth) :
    drainToQuiescence cfg (blk.append b) =
      drained blk magic (textMsg (blk.B.take (blk.B.length - 2))).toList blk.ovf := by
  have h2 := hc.2.1
  have hd : (blk.B ++ [b]).drop (blk.B.length - 2) = magic := by
    rw [List.drop_append_of_le_length (by omega), hc.2.2, hc.1]; rfl
  have hwait : ∀ blk' : Block, blk'.B = magic → drainStep cfg blk' = (blk', .quiet) := fun blk' hB =>
    drainStep_frameWait (by rw [hB]; decide) (by rw [hB]; decide)
  by_cases h0 : blk.B.length = 2
  · have hB : blk.B ++ [b] = magic := by simpa [h0] using hd
    rw [drainToQuiescence_quiet (hwait _ hB) (by simp)]
    simp [drained, h0, textMsg, trim, hB, Block.append]
  · have h := drainStep_prefix (cfg := cfg) (blk := blk.append b) (findAnchor_snoc_completes ha hc) (by omega)
    rw [commit_fits (blk := blk.append _) (.inr hr)] at h
    rw [drainToQuiescence_moved h (hwait _ hd) (by simp)]
    simp only [drained, Block.append_B, Block.append_OQ, Block.append_eng, Block.append_ovf, hd]
    rw [List.take_append_of_le_length (by omega)]

/-- R114, Q0 and Q1: a byte that ends nothing waits while it fits. -/
theorem drain_snoc_wait (ha : findAnchor blk.B = none) (hf : findLF blk.B = none) (hb : b ≠ lf)
    (hc : ¬ completesAnchor blk.B b) (hcap : belowCap cfg (blk.B.length + 1) = true) :
    drainToQuiescence cfg (blk.append b) = blk.append b :=
  drainToQuiescence_quiet (drainStep_wait (by simp) (findAnchor_snoc_none ha hc) (findLF_snoc_none hf hb)
    (by simpa using hcap)) (by simp)

/-- R114, Q1: the byte that fills the buffer flushes it. -/
theorem drain_snoc_ovf (hl : cfg.Legal) (ha : findAnchor blk.B = none) (hf : findLF blk.B = none) (hb : b ≠ lf)
    (hc : ¬ completesAnchor blk.B b) (hcap : belowCap cfg (blk.B.length + 1) = false)
    (hr : blk.OQ.length < cfg.outDepth) :
    drainToQuiescence cfg (blk.append b) =
      drained blk ((blk.B ++ [b]).drop (blk.B.length - 1)) (textMsg ((blk.B ++ [b]).take (blk.B.length - 1))).toList true := by
  have ha' := findAnchor_snoc_none ha hc
  have hf' := findLF_snoc_none hf hb
  have hbig : 65539 ≤ blk.B.length := by
    by_contra hn
    rw [belowCap_of_legal hl (by omega)] at hcap; cases hcap
  have hn : (blk.B ++ [b]).length - 2 = blk.B.length - 1 := by simp
  have h := (drainStep_ovf (cfg := cfg) (blk := blk.append b) (by simp) ha' hf' (by simpa using hcap)).trans
    (branchOvf_fits (.inr hr))
  have h' : drainStep cfg (flushed (blk.append b)) = (flushed (blk.append b), .quiet) := by
    refine drainStep_wait ?_ (findAnchor_eq_none_of_drop ha' _) (findLF_eq_none_of_drop hf' _) ?_
    · intro h0
      have := congrArg List.length h0
      simp [flushed] at this; omega
    · refine belowCap_of_legal hl ?_
      simp [flushed]; omega
  rw [drainToQuiescence_moved h h' (by simp)]
  simp only [flushed, drained, Block.append_B, hn, Block.append_OQ, Block.append_eng]

/-- R114, Q2: a byte before the frame's last waits. -/
theorem drain_snoc_frameWait (ha : anchored blk.B = true) (hd : tryDecode (blk.B ++ [b]) = .incomplete) :
    drainToQuiescence cfg (blk.append b) = blk.append b :=
  drainToQuiescence_quiet (drainStep_frameWait (anchored_append ha _) hd) (by simp)

/-- A frame that the last byte completed is the whole buffer. -/
theorem size_of_completed {B : Bytes} (ha : anchored B = true) (hi : tryDecode B = .incomplete)
    (hd : tryDecode (B ++ [b]) ≠ .incomplete) : frameSize (lenField (B ++ [b])) = B.length + 1 := by
  obtain ⟨x, y, body, he, hle, -⟩ := complete_of_decoded (anchored_append ha [b]) hd
  have hlen : B.length + 1 = body.length + 5 := by
    have := congrArg List.length he; simpa [magic] using this
  rw [he, lenField_magic]
  simp only [frameSize, hdrLen]
  by_contra hne
  have hlt : (be16 x y).toNat < body.length := by omega
  -- then the frame was complete before the byte
  obtain ⟨body', z, rfl⟩ : ∃ body' z, body = body' ++ [z] := by
    rcases List.eq_nil_or_concat body with h | ⟨l, z, h⟩
    · simp [h] at hlt
    · exact ⟨l, z, by simpa using h⟩
  have hB : B = magic ++ x :: y :: body' := by
    have : B ++ [b] = (magic ++ x :: y :: body') ++ [z] := by rw [he]; simp
    exact (List.append_inj' this rfl).1
  rw [hB, tryDecode_magic, if_neg (by simp at hlt; omega)] at hi
  unfold spanOutcome at hi
  split_ifs at hi

/-- R114, Q2: the last byte of a good frame sends it. -/
theorem drain_snoc_frameOk (ha : anchored blk.B = true) (hi : tryDecode blk.B = .incomplete) {f : Frame} {n : Nat}
    (hd : tryDecode (blk.B ++ [b]) = .ok f n) (hr : blk.OQ.length < cfg.outDepth) :
    drainToQuiescence cfg (blk.append b) = drained blk [] [.binary f] blk.ovf := by
  have hs := size_of_completed ha hi (b := b) (by simp [hd])
  have hn := (tryDecode_consumes.1 f n hd).1
  have h := drainStep_frameOk (cfg := cfg) (blk := blk.append b) (anchored_append ha _) hd
  rw [commit_fits (blk := blk.append _) (.inr hr)] at h
  have hB : (blk.B ++ [b]).drop n = [] := by simp; omega
  rw [drainToQuiescence_moved h (drainStep_nil (by simpa using hB)) (by simp)]
  simp only [drained, Block.append_B, hB, Block.append_OQ, Option.toList_some, Block.append_eng, Block.append_ovf]

/-- R114, Q2: the last byte of a malformed frame reports it. -/
theorem drain_snoc_frameInv (ha : anchored blk.B = true) (hi : tryDecode blk.B = .incomplete) {r : Reason} {L : Half} {n : Nat}
    (hd : tryDecode (blk.B ++ [b]) = .invalid r L n) (hr : blk.OQ.length < cfg.outDepth) :
    drainToQuiescence cfg (blk.append b) = drained blk [] [.error r L (blk.B ++ [b])] blk.ovf := by
  have hs := size_of_completed ha hi (b := b) (by simp [hd])
  obtain ⟨hL, hn, -⟩ := tryDecode_consumes.2 r L n hd
  have h := drainStep_frameInv (cfg := cfg) (blk := blk.append b) (anchored_append ha _) hd
  rw [commit_fits (blk := blk.append _) (.inr hr)] at h
  have hn' : n = blk.B.length + 1 := by rw [hn, hL, hs]
  have hB : (blk.B ++ [b]).drop n = [] := by simp; omega
  have hT : (blk.B ++ [b]).take n = blk.B ++ [b] := List.take_of_length_le (by simp; omega)
  rw [drainToQuiescence_moved h (drainStep_nil (by simpa using hB)) (by simp)]
  simp only [drained, Block.append_B, hB, hT, Block.append_OQ, Option.toList_some, Block.append_eng, Block.append_ovf]

end

end Sys2Proof.Machine
end

