-- ==== Sys2Proof/Laws/Decode.lean ====
section
/-! SUPPORT. The decoder's spec lemmas: what `decode` gives for a buffer written as anchor, length and rest, and the fields of
the encoder's frames. -/

namespace Sys2Proof

@[simp] theorem decode_magic (rest : Bytes) : decode (magic ++ rest) = .ok (decodeAnchored rest) := by
  unfold decode
  rw [if_pos (anchored_magic rest)]; rfl

theorem decode_error_iff (S : Bytes) : decode S = .error .misaligned ↔ anchored S = false := by
  unfold decode; split <;> simp_all

/-- A buffer the decoder accepts is the anchor and a rest. -/
theorem decode_ok {S : Bytes} {i : Instr} (h : decode S = .ok i) : ∃ rest, S = magic ++ rest ∧ decodeAnchored rest = i := by
  have ha : anchored S = true := by
    by_contra hn
    rw [(decode_error_iff S).2 (by simpa using hn)] at h; cases h
  obtain ⟨rest, rfl⟩ := (anchored_iff S).1 ha
  rw [decode_magic] at h
  exact ⟨rest, rfl, by injection h⟩

theorem decodeAnchored_short {rest : Bytes} (h : rest.length < 2) : decodeAnchored rest = .incomplete rest := by
  match rest, h with
  | [], _ => rfl
  | [_], _ => rfl

theorem decodeAnchored_cons (a b : Byte) (body : Bytes) :
    decodeAnchored (a :: b :: body) =
      if body.length < (be16 a b).toNat then .incomplete (a :: b :: body) else classify (body.take (be16 a b).toNat) := rfl

@[simp] theorem frameOf_append (P X : Bytes) :
    frameOf P ++ X = magic ++ hiByte (BitVec.ofNat 16 P.length) :: loByte (BitVec.ofNat 16 P.length) :: (P ++ X) := by
  simp [frameOf]

/-- A frame built around a payload decodes to the payload's class, whatever follows it. -/
theorem decode_frameOf {P : Bytes} (h : P.length ≤ maxLen) (X : Bytes) : decode (frameOf P ++ X) = .ok (classify P) := by
  have hm : P.length % 65536 = P.length := Nat.mod_eq_of_lt (by simp only [maxLen] at h; omega)
  rw [frameOf_append, decode_magic, decodeAnchored_cons, be16_hi_lo, BitVec.toNat_ofNat, show (2 : Nat) ^ 16 = 65536 from rfl, hm,
    if_neg (by simp), List.take_left' rfl]

theorem withCrc_length (body : Bytes) : (withCrc body).length = body.length + 1 := by simp [withCrc]

@[simp] theorem xorfold_withCrc (body : Bytes) : xorfold (withCrc body) = 0 := by simp [withCrc]

/-! ### Frames written by the encoder -/

namespace Machine

/-- A length that fits the length field reads back. -/
theorem lenOf_toNat {n : Nat} (h : n ≤ 65535) : (BitVec.ofNat 16 n).toNat = n := by
  simp; omega

/-- The size of a frame around `n` payload bytes. -/
theorem frameSize_lenOf {n : Nat} (h : n ≤ 65535) : frameSize (BitVec.ofNat 16 n) = 5 + n := by
  simp only [frameSize, hdrLen]; rw [lenOf_toNat h]

/-- The declared span of a frame is the frame. -/
theorem take_frameOf {P : Bytes} (h : P.length ≤ 65535) : slice (frameOf P) 0 (frameSize (BitVec.ofNat 16 P.length)) = frameOf P := by
  rw [frameSize_lenOf h, slice_zero]; apply List.take_of_length_le; simp [frameOf, magic]; omega

/-- `tryDecode` on a frame, whatever follows it. -/
theorem tryDecode_frameOf {P : Bytes} (X : Bytes) (h : P.length ≤ 65535) :
    tryDecode (frameOf P ++ X) = spanOutcome (BitVec.ofNat 16 P.length) P (frameOf P) := by
  have hm : P.length % 65536 = P.length := Nat.mod_eq_of_lt (by omega)
  rw [frameOf_append, tryDecode_magic, be16_hi_lo, BitVec.toNat_ofNat, show (2 : Nat) ^ 16 = 65536 from rfl, hm,
    if_neg (by simp), List.take_left' rfl]
  congr 1

end Machine

/-- The class of a control payload is the row of its type byte. -/
theorem classify_ctrlPayload (c : Half) (t : Byte) (st : Half) : classify (ctrlPayload c t st) = ctrlRow c t st := by
  have hl : (ctrlPayload c t st).length = 6 := rfl
  unfold classify
  rw [if_neg (by rw [hl]; decide), if_neg (by simp [ctrlPayload]), if_pos (by rw [hl]; rfl)]
  simp [ctrlPayload, withCrc]

/-- The class of a longer payload that passes the CRC is DATA. -/
theorem classify_data (c : Half) (p : Bytes) (h4 : 4 ≤ p.length) : classify (withCrc ([hiByte c, loByte c] ++ p)) = .data c p := by
  have hl : (withCrc ([hiByte c, loByte c] ++ p)).length = p.length + 3 := by simp [withCrc]
  unfold classify
  rw [if_neg (by rw [hl]; omega), if_neg (by rw [xorfold_withCrc]; simp), if_neg (by rw [hl]; simp [ctrlLen]; omega)]
  simp [withCrc]

end Sys2Proof
end

