-- ==== Sys2Proof/Laws/PerInstr.lean ====
section
/-! SUPPORT. The families proved instruction by instruction. `WireForm`: a row either has no wire bytes, or its bytes start with
the anchor (spec/30_encoding.md R55). -/

namespace Sys2Proof.Laws

/-- The rows without wire bytes are the drain rows and the port events; every other row's bytes start with the anchor. -/
def WireForm.Statement (i : Instr) : Prop := encode i = [] ∨ anchored (encode i) = true

theorem WireForm.anchored_frameOf (P : Bytes) : anchored (frameOf P) = true := by
  simpa using congrArg anchored (frameOf_append P [])

theorem WireForm.ack (cmd status : Half) : WireForm.Statement (.ack cmd status) := .inr (anchored_frameOf _)
theorem WireForm.done (cmd status : Half) : WireForm.Statement (.done cmd status) := .inr (anchored_frameOf _)
theorem WireForm.nack (cmd status : Half) : WireForm.Statement (.nack cmd status) := .inr (anchored_frameOf _)
theorem WireForm.ctrlOther (cmd : Half) (typ : Byte) (status : Half) : WireForm.Statement (.ctrlOther cmd typ status) :=
  .inr (anchored_frameOf _)
theorem WireForm.data (cmd : Half) (body : Bytes) : WireForm.Statement (.data cmd body) := .inr (anchored_frameOf _)
theorem WireForm.crcMismatch (payload : Bytes) : WireForm.Statement (.crcMismatch payload) := .inr (anchored_frameOf _)
theorem WireForm.tooShort (payload : Bytes) : WireForm.Statement (.tooShort payload) := .inr (anchored_frameOf _)
theorem WireForm.incomplete (rest : Bytes) : WireForm.Statement (.incomplete rest) := .inr (anchored_magic _)
theorem WireForm.req (cmd : Half) (params : Bytes) : WireForm.Statement (.req cmd params) := .inr (anchored_frameOf _)
theorem WireForm.dEmpty : WireForm.Statement .dEmpty := .inl rfl
theorem WireForm.dPrefix : WireForm.Statement .dPrefix := .inl rfl
theorem WireForm.dFrameWait : WireForm.Statement .dFrameWait := .inl rfl
theorem WireForm.dFrameOk : WireForm.Statement .dFrameOk := .inl rfl
theorem WireForm.dFrameInv : WireForm.Statement .dFrameInv := .inl rfl
theorem WireForm.dLine : WireForm.Statement .dLine := .inl rfl
theorem WireForm.dOvf : WireForm.Statement .dOvf := .inl rfl
theorem WireForm.dWait : WireForm.Statement .dWait := .inl rfl
theorem WireForm.accept (b : Byte) : WireForm.Statement (.accept b) := .inl rfl
theorem WireForm.pop : WireForm.Statement .pop := .inl rfl
theorem WireForm.reconnect : WireForm.Statement .reconnect := .inl rfl
theorem WireForm.cancel : WireForm.Statement .cancel := .inl rfl
theorem WireForm.terr : WireForm.Statement .terr := .inl rfl
theorem WireForm.reset : WireForm.Statement .reset := .inl rfl

end Sys2Proof.Laws
end

