-- ==== Sys2Proof/Laws/Step.lean ====
section
/-! SUPPORT. What `exec` answers, row by row where a row can answer next, and what one edge does, stage by stage
(spec/42_port_operations.md R124). -/

namespace Sys2Proof.Machine

/-! ### The rows -/

/-- ACCEPT's enabling condition (R118). -/
theorem acceptEnabled_iff (cfg : Config) (blk : Block) :
    blk.acceptEnabled cfg = true ↔ blk.eng = .run ∧ blk.OQ.length < cfg.outDepth ∧ belowCap cfg blk.B.length = true := by
  simp [Block.acceptEnabled, Block.room, and_assoc]

/-- The state an enabled ACCEPT gives. -/
abbrev State.accepted (b : Byte) (s : State) : State :=
  let blk := drainToQuiescence s.cfg (s.blk.append b)
  (s.withBlk blk).withCyc (s.cyc.startDrain s.cfg (blk.OQ.length - s.blk.OQ.length))

/-- `t` is `s` after a POP. -/
abbrev State.PopsTo (s t : State) : Prop :=
  ∃ m rest, s.blk.OQ = m :: rest ∧ t = (s.withBlk { s.blk with OQ := rest }).receive m

/-- The state of an edge once its clock has advanced and a RECONNECT it carries is taken. -/
abbrev State.begun (p : PortIn) (s : State) : State :=
  if (s.cyc.effective p).reconnect then (s.withCyc (s.cyc.advance p)).withBlk s.blk.restart
  else s.withCyc (s.cyc.advance p)

/-- A codec row writes the result of its call, or its term is no frame. -/
theorem exec_frameRow (i : Instr) (s : State)
    (hi : (∃ c st, i = .ack c st) ∨ (∃ c st, i = .done c st) ∨ (∃ c st, i = .nack c st) ∨ (∃ c ty st, i = .ctrlOther c ty st) ∨
      (∃ c b, i = .data c b) ∨ (∃ p, i = .crcMismatch p) ∨ (∃ p, i = .tooShort p) ∨ (∃ r, i = .incomplete r) ∨
      (∃ c p, i = .req c p)) : (∃ r, exec i s = .next (s.withResult r)) ∨ exec i s = .refused .noSuchFrame := by
  have key : ∀ w o, (∃ r, retDecodedIf w o s = .next (s.withResult r)) ∨ retDecodedIf w o s = .refused .noSuchFrame := by
    intro w o; cases w
    · exact .inr rfl
    · exact .inl ⟨_, rfl⟩
  rcases hi with ⟨c, st, rfl⟩ | ⟨c, st, rfl⟩ | ⟨c, st, rfl⟩ | ⟨c, t, st, rfl⟩ |
    ⟨c, b, rfl⟩ | ⟨p, rfl⟩ | ⟨p, rfl⟩ | ⟨r, rfl⟩ | ⟨c, p, rfl⟩
  · exact .inl ⟨_, rfl⟩
  · exact .inl ⟨_, rfl⟩
  · exact .inl ⟨_, rfl⟩
  all_goals first | exact key _ _ | exact .inl ⟨_, rfl⟩

/-- The row of a drain branch is one stand-alone iteration of that branch. -/
theorem exec_branchRow (s : State) (br : Branch) : exec br.toInstr s = runBranch br (fun cfg => branchEffect cfg br) s := by
  cases br <;> rfl

/-- Where ACCEPT answers next, and what it answers. -/
theorem exec_accept_next {b : Byte} {s t : State} (h : exec (.accept b) s = .next t) :
    s.cyc.busy = 0 ∧ s.blk.acceptEnabled s.cfg = true ∧ t = s.accepted b := by
  change execAccept b s = _ at h
  unfold execAccept Block.accept at h
  split_ifs at h with h1 h2
  cases h
  refine ⟨?_, h2, rfl⟩
  simp [Cyc.isBusy] at h1; exact h1

/-- Where POP answers next, and what it answers. -/
theorem exec_pop_next {s t : State} (h : exec .pop s = .next t) : s.PopsTo t := by
  change execPop s = _ at h
  unfold execPop Block.pop at h
  cases hq : s.blk.OQ <;> rw [hq] at h <;> cases h
  exact ⟨_, _, hq, rfl⟩

/-! ### One edge -/

/-- Events in two parts. -/
theorem runEvents_append (l1 l2 : List Instr) (s s' : State) (h : runEvents l1 s = .next s') :
    runEvents (l1 ++ l2) s = runEvents l2 s' := by
  induction l1 generalizing s with
  | nil => cases h; rfl
  | cons i l ih =>
    unfold runEvents at h
    simp only [List.cons_append]
    rw [runEvents]
    cases hi : exec i s with
    | next u => rw [hi] at h; exact ih u h
    | fault r => rw [hi] at h; cases h
    | refused r => rw [hi] at h; cases h

/-- An event taken under a condition. -/
theorem runEvents_if (c : Bool) (i : Instr) (s s' : State) (h : if c then exec i s = .next s' else s' = s) :
    runEvents (if c then [i] else []) s = .next s' := by
  cases c with
  | true => simp at h; simp [runEvents, h]
  | false => simp at h; subst h; rfl

/-- `in_ready` (R25). -/
theorem inReady_iff (rst : Bool) (s : State) :
    inReady rst s = true ↔ rst = false ∧ s.cyc.busy = 0 ∧ s.blk.acceptEnabled s.cfg = true := by
  simp [inReady, Cyc.isBusy]; tauto

/-- The five stages of an edge without reset, and the parameters, which stay. -/
structure EdgeStages (p : PortIn) (s s1 s2 s3 s4 s5 : State) : Prop where
  par : s2.par = s.par
  h1 : s1 = s.begun p
  h2 : if outValid p.rst s && p.outReady then s1.PopsTo s2 else s2 = s1
  h3 : if p.inValid && inReady p.rst s then s2.blk.acceptEnabled s.cfg = true ∧ s3 = s2.accepted p.inData else s3 = s2
  h4 : s4 = if (s.cyc.effective p).inErr then s3.withBlk s3.blk.fatal else s3
  h5 : s5 = if (s.cyc.effective p).cancel then s4.withBlk s4.blk.stop else s4

/-- Deferring touches the three control inputs alone. -/
theorem effective_same (c : Cyc) (p : PortIn) :
    (c.effective p).rst = p.rst ∧ (c.effective p).outReady = p.outReady ∧
    (c.effective p).inValid = p.inValid ∧ (c.effective p).inData = p.inData := by
  unfold Cyc.effective; split <;> exact ⟨rfl, rfl, rfl, rfl⟩

/-- An edge without `rst` always completes, through its five stages. -/
theorem runEdge_stages (p : PortIn) (s : State) (hr : p.rst = false) :
    ∃ s1 s2 s3 s4 s5, EdgeStages p s s1 s2 s3 s4 s5 ∧ runEdge p s = .next s5 := by
  obtain ⟨e1, e2, e3, e4⟩ := effective_same s.cyc p
  let s1 := s.begun p
  have q1 : s1.blk.OQ = s.blk.OQ := by simp only [s1, State.begun]; split <;> rfl
  have c1 : s1.cyc = s.cyc.advance p := by simp only [s1, State.begun]; split <;> rfl
  have p1 : s1.par = s.par := by simp only [s1, State.begun]; split <;> rfl
  have en1 : s.blk.acceptEnabled s.cfg = true → s1.blk.acceptEnabled s.cfg = true := by
    simp only [s1, State.begun]; split
    · rw [acceptEnabled_iff, acceptEnabled_iff]; rintro ⟨-, h2, h3⟩; exact ⟨rfl, h2, belowCap_mono (Nat.zero_le _) h3⟩
    · exact id
  have x2 : ∃ s2, (if outValid p.rst s && p.outReady then s1.PopsTo s2 else s2 = s1) := by
    split
    · rename_i h
      have : 0 < s.blk.OQ.length := by simp [outValid, State.visible] at h; omega
      cases hq : s.blk.OQ with
      | nil => simp [hq] at this
      | cons m rest => exact ⟨_, m, rest, q1.trans hq, rfl⟩
    · exact ⟨_, rfl⟩
  obtain ⟨s2, h2⟩ := x2
  have c2 : s2.cyc = s.cyc.advance p := by
    split_ifs at h2
    · obtain ⟨m, rest, -, rfl⟩ := h2; exact c1
    · subst h2; exact c1
  have p2 : s2.par = s.par := by
    split_ifs at h2
    · obtain ⟨m, rest, -, rfl⟩ := h2; exact p1
    · subst h2; exact p1
  have en2 : s.blk.acceptEnabled s.cfg = true → s2.blk.acceptEnabled s.cfg = true := by
    intro h
    split_ifs at h2
    · obtain ⟨m, rest, hq, rfl⟩ := h2
      obtain ⟨h1, h2, h3⟩ := (acceptEnabled_iff _ _).1 (en1 h)
      exact (acceptEnabled_iff _ _).2 ⟨h1, by rw [hq] at h2; simp at h2 ⊢; omega, h3⟩
    · subst h2; exact en1 h
  have x3 : ∃ s3, (if p.inValid && inReady p.rst s then s2.blk.acceptEnabled s.cfg = true ∧ s3 = s2.accepted p.inData else s3 = s2) := by
    split
    · rename_i h
      exact ⟨_, en2 ((inReady_iff _ _).1 (by simp at h; exact h.2)).2.2, rfl⟩
    · exact ⟨_, rfl⟩
  obtain ⟨s3, h3⟩ := x3
  refine ⟨s1, s2, s3, _, _, ⟨p2, rfl, h2, h3, rfl, rfl⟩, ?_⟩
  unfold runEdge edgeEvents decodeEdge
  rw [e1, e2, e3, e4, hr, if_neg (by simp)]
  rw [runEvents_append (s' := (if (s.cyc.effective p).inErr then s3.withBlk s3.blk.fatal else s3))]
  · apply runEvents_if; split <;> simp_all [exec, execCancel]
  rw [runEvents_append (s' := s3)]
  · apply runEvents_if; split <;> simp_all [exec, execTerr]
  rw [runEvents_append (s' := s2)]
  · apply runEvents_if
    rw [hr] at h3
    split_ifs with hc
    · rw [if_pos hc] at h3
      obtain ⟨he, rfl⟩ := h3
      have hb : s2.cyc.busy = 0 := by
        have := ((inReady_iff _ _).1 (by simp at hc; exact hc.2)).2.1
        rw [c2]; simp [Cyc.advance, this]
      show execAccept _ _ = _
      unfold execAccept Block.accept
      rw [if_neg (by simp [Cyc.isBusy, hb]), if_pos (show s2.blk.acceptEnabled s2.cfg = true by rw [State.cfg, p2]; exact he)]
    · rw [if_neg hc] at h3; exact h3
  rw [runEvents_append (s' := s1)]
  · apply runEvents_if
    rw [hr] at h2
    split_ifs with hc
    · rw [if_pos hc] at h2
      obtain ⟨m, rest, hq, rfl⟩ := h2
      show execPop _ = _
      unfold execPop Block.pop
      rw [hq]
    · rw [if_neg hc] at h2; exact h2
  · apply runEvents_if; simp only [s1, State.begun]; split <;> simp_all [exec, execReconnect]

/-- An edge with `rst` is RESET. -/
theorem runEdge_rst (p : PortIn) (s : State) (hr : p.rst = true) :
    runEdge p s = .next ((s.withBlk Block.reset).withCyc { Cyc.reset with tick := s.cyc.tick + 1 }) := by
  unfold runEdge edgeEvents decodeEdge
  rw [(effective_same _ _).1, hr]; rfl

end Sys2Proof.Machine
end

