-- ==== Sys2Proof/Tests/Slice0.lean ====
section
/-! SUPPORT. The model's own tests, on values of spec/95_test_vectors.md or computed by hand from the rules, and for every
statement with hypotheses a witness that meets them. -/

namespace Sys2Proof.Tests
open Sys2Proof.Machine

/-- The machine after reset with another block, under given parameters or this hardware's. -/
def st (B : Bytes) (OQ : List Msg := []) (eng : Eng := .run) (ovf : Bool := false) (par : Params := Params.hw) : State :=
  (State.resetWith par).withBlk { B := B, OQ := OQ, eng := eng, ovf := ovf }

/-- An unbounded buffer, a queue of one message, and drains of 2 and 0 cycles in turn. -/
def parInf : Params := { bufCap := none, outDepth := some 1, drainLatency := [2, 0] }

/-- A buffer one byte larger than this hardware's. -/
def parLarger : Params := { bufCap := some 65541, outDepth := none, drainLatency := [] }

/-- The same with BUSY at 1 for `n` more cycles. -/
def busySt (n : Nat) : State := (st []).withCyc { Cyc.reset with busy := n }

/-- The block of a next state. -/
def blkOf (o : Host.Outcome State Fault Refusal) : Option Block :=
  match o with
  | .next t => some t.blk
  | .fault _ | .refused _ => none

/-- The call result of a next state. -/
def resultOf (o : Host.Outcome State Fault Refusal) : Option CallResult :=
  match o with
  | .next t => some t.env.result
  | .fault _ | .refused _ => none

/-- The POP outputs of a next state. -/
def poppedOf (o : Host.Outcome State Fault Refusal) : Option (List Msg) :=
  match o with
  | .next t => some t.env.popped
  | .fault _ | .refused _ => none

/-- `done(0x1000, 0)` (V12). -/
def doneFrame : Bytes := [0x43, 0x4D, 0x3E, 0x00, 0x06, 0x10, 0x00, 0x02, 0x00, 0x00, 0x12]

/-- The Binary record of `doneFrame` (V33). -/
def doneMsg : Msg := .binary (Frame.mk 0x1000 .done 0x02 0x0000 [] doneFrame)

/-- `encode(0x1000)` (V50). -/
def shortFrame : Bytes := [0x43, 0x4D, 0x3E, 0x00, 0x03, 0x10, 0x00, 0x10]

/-- `data(0x3003, de ad be ef)` (V39). -/
def dataFrame : Bytes := [0x43, 0x4D, 0x3E, 0x00, 0x07, 0x30, 0x03, 0xDE, 0xAD, 0xBE, 0xEF, 0x11]

/-- A queue that is full whatever the depth. -/
def fullQueue : List Msg := List.replicate Params.hw.config.outDepth (.text [0x61])

/-! ### WellFormed: an ill-formed term for each check -/

theorem test_wf_ctrlOther_ack : (Instr.ctrlOther 0x1000 0x01 0).wf = false := by decide
theorem test_wf_ctrlOther_done : (Instr.ctrlOther 0x1000 0x02 0).wf = false := by decide
theorem test_wf_ctrlOther_nack : (Instr.ctrlOther 0x1000 0x04 0).wf = false := by decide
theorem test_wf_data_short : (Instr.data 0x1000 [1, 2, 3]).wf = false := by decide
theorem test_wf_data_long : (Instr.data 0x1000 (List.replicate 65533 0)).wf = false := by
  simp only [Instr.wf, List.length_replicate]; decide
theorem test_wf_crcMismatch_short : (Instr.crcMismatch [1, 0, 0, 0, 0]).wf = false := by decide
theorem test_wf_crcMismatch_good_crc : (Instr.crcMismatch [0x10, 0x00, 0x02, 0x00, 0x00, 0x12]).wf = false := by decide
theorem test_wf_crcMismatch_long : (Instr.crcMismatch (List.replicate 65536 1)).wf = false := by
  simp only [Instr.wf, List.length_replicate]; rfl
theorem test_wf_tooShort_long : (Instr.tooShort [0, 0, 0, 0, 0, 0]).wf = false := by decide
theorem test_wf_incomplete_complete : (Instr.incomplete [0x00, 0x01, 0xFF]).wf = false := by decide
theorem test_wf_req_long : (Instr.req 0x1000 (List.replicate 65533 0)).wf = false := by
  simp only [Instr.wf, List.length_replicate]; decide

/-! ### Decoding: words written out from R55 to R62 -/

theorem test_decode_ack : decode [0x43, 0x4D, 0x3E, 0x00, 0x06, 0x10, 0x01, 0x01, 0x00, 0xA5, 0xB5] = .ok (.ack 0x1001 0x00A5) := by
  rfl
theorem test_decode_done : decode [0x43, 0x4D, 0x3E, 0x00, 0x06, 0x01, 0x01, 0x02, 0x00, 0x00, 0x02] = .ok (.done 0x0101 0x0000) := by
  rfl
theorem test_decode_nack : decode [0x43, 0x4D, 0x3E, 0x00, 0x06, 0x10, 0x02, 0x04, 0x00, 0x05, 0x13] = .ok (.nack 0x1002 0x0005) := by
  rfl
theorem test_decode_ctrlOther :
    decode [0x43, 0x4D, 0x3E, 0x00, 0x06, 0xAB, 0xCD, 0xFF, 0xFF, 0xFF, 0x99] = .ok (.ctrlOther 0xABCD 0xFF 0xFFFF) := by rfl
theorem test_decode_data_first_byte_is_no_type :
    decode [0x43, 0x4D, 0x3E, 0x00, 0x07, 0x10, 0x00, 0x01, 0x00, 0x00, 0x00, 0x11] = .ok (.data 0x1000 [1, 0, 0, 0]) := by rfl
theorem test_decode_data_anchor_inside :
    decode [0x43, 0x4D, 0x3E, 0x00, 0x07, 0x00, 0x42, 0x43, 0x4D, 0x3E, 0x00, 0x72] = .ok (.data 0x0042 [0x43, 0x4D, 0x3E, 0x00]) := by
  rfl
theorem test_decode_crcMismatch :
    decode [0x43, 0x4D, 0x3E, 0x00, 0x06, 0x10, 0x00, 0x01, 0x00, 0x00, 0x12] = .ok (.crcMismatch [0x10, 0x00, 0x01, 0x00, 0x00, 0x12]) := by
  rfl
theorem test_decode_tooShort : decode [0x43, 0x4D, 0x3E, 0x00, 0x01, 0xFF] = .ok (.tooShort [0xFF]) := by rfl
theorem test_decode_incomplete : decode [0x43, 0x4D, 0x3E, 0x00] = .ok (.incomplete [0x00]) := by rfl
theorem test_decode_misaligned : decode [0x78, 0x43, 0x4D, 0x3E] = .error .misaligned := by rfl
theorem test_encode_req : encode (.req 0x1002 [0x01]) = [0x43, 0x4D, 0x3E, 0x00, 0x04, 0x10, 0x02, 0x01, 0x13] := by decide
/-- A drain row and a port event are no frame (R101, R124). -/
theorem test_encode_no_frame : encode .dLine = [] ∧ encode (.accept 0x41) = [] := by decide
/-- R124: all six port inputs at once, without `rst` and with it. -/
theorem test_decodeEdge_order :
    decodeEdge { inValid := true, inData := 0x68, inErr := true, reconnect := true, cancel := true, outReady := true } true true =
      [.reconnect, .pop, .accept 0x68, .terr, .cancel] := by decide
theorem test_decodeEdge_rst :
    decodeEdge { rst := true, inValid := true, inErr := true, reconnect := true, cancel := true, outReady := true } true true = [.reset] := by
  decide

/-! ### The host's table word (R65) -/

/-- H of the control frame `cmd = 0x0001`, type `0x01`, with a zero tail: the CRC byte is zero, as the fold asks. -/
theorem test_decodeTableWord_ack : decodeTableWord 64 0x434D3E0006000101 = some (.ack 0x0001 0) := by decide
/-- H of the match word of ACK: with a zero tail its CRC fails. -/
theorem test_decodeTableWord_crcMismatch : decodeTableWord 64 0x434D3E0006000001 = some (.crcMismatch [0, 0, 1, 0, 0, 0]) := by decide
/-- The very next step runs the placed word. -/
theorem test_withFetchWord : resultOf (step (State.reset.withFetchWord 64 0x434D3E0006000101)) =
    some (.decoded (.ok (Frame.mk 0x0001 .ack 0x01 0 [] [0x43, 0x4D, 0x3E, 0, 6, 0, 1, 1, 0, 0, 0]) 11)) := by decide

/-! ### Frame rows -/

theorem test_crc : crc [0x10, 0x02, 0x01] = 0x13 ∧ crc [] = 0x00 ∧ crc [0xFF, 0xFF] = 0x00 := by decide
theorem test_req_none : exec (.req 0 (List.replicate 65533 0)) State.reset = .next (State.reset.withResult (.built none)) := by
  simp only [exec, execReq, buildFrame, List.length_replicate]; rfl
theorem test_req_v7 : resultOf (exec (.req 0 []) State.reset) = some (.built (some [0x43, 0x4D, 0x3E, 0, 3, 0, 0, 0])) := by decide
theorem test_ack : resultOf (exec (.ack 0x1001 0x00A5) State.reset) = some (.decoded (.ok (Frame.mk 0x1001 .ack 0x01 0x00A5 []
    [0x43, 0x4D, 0x3E, 0x00, 0x06, 0x10, 0x01, 0x01, 0x00, 0xA5, 0xB5]) 11)) := by decide
theorem test_data : resultOf (exec (.data 0x3003 [0xDE, 0xAD, 0xBE, 0xEF]) State.reset) =
    some (.decoded (.ok (Frame.mk 0x3003 .data 0x00 0x0000 [0xDE, 0xAD, 0xBE, 0xEF] dataFrame) 12)) := by decide
theorem test_tooShort : resultOf (exec (.tooShort []) State.reset) = some (.decoded (.invalid .tooShort 0 5)) := by decide
theorem test_crcMismatch : resultOf (exec (.crcMismatch [0x30, 0x03, 0x5E, 0xAD, 0xBE, 0xEF, 0x11]) State.reset) =
    some (.decoded (.invalid .crcMismatch 7 12)) := by decide
/-- V22: a short frame too waits for all its bytes. -/
theorem test_tryDecode_v22 : tryDecode [0x43, 0x4D, 0x3E, 0x00, 0x05, 0x10, 0x00, 0x00, 0x00] = .incomplete := by decide
/-- V25: bytes after the declared frame do not matter. -/
theorem test_tryDecode_v25 : tryDecode [0x43, 0x4D, 0x3E, 0x00, 0x00, 0x74, 0x61, 0x69, 0x6C] = .invalid .tooShort 0 5 := by decide
/-- V16 to V18. -/
theorem test_misaligned : tryDecode [] = .misaligned ∧ tryDecode [0x43, 0x4D] = .misaligned ∧
    tryDecode [0x78, 0x43, 0x4D, 0x3E] = .misaligned := by decide
theorem test_step_misaligned : step (State.reset.withStim [.tryDecode [0x78]]) = .fault (.misalignedDecode [0x78]) := by rfl

/-! ### Drain rows (V44 to V57) -/

theorem test_dEmpty : resultOf (exec .dEmpty (st [])) = some (.drained .quiet) := by decide
theorem test_dPrefix_v45 : blkOf (exec .dPrefix (st [0x62, 0x6F, 0x6F, 0x74, 0x20, 0x6F, 0x6B, 0x43, 0x4D, 0x3E])) =
    some { B := [0x43, 0x4D, 0x3E], OQ := [.text [0x62, 0x6F, 0x6F, 0x74, 0x20, 0x6F, 0x6B]], eng := .run, ovf := false } := by decide
theorem test_dPrefix_v46 : blkOf (exec .dPrefix (st [0x20, 0x0D, 0x0A, 0x43, 0x4D, 0x3E])) = some (st [0x43, 0x4D, 0x3E]).blk := by decide
theorem test_dFrameWait : resultOf (exec .dFrameWait (st [0x43, 0x4D, 0x3E, 0x00, 0x06, 0x10, 0x00])) = some (.drained .quiet) := by decide
theorem test_dFrameOk : blkOf (exec .dFrameOk (st doneFrame)) = some (st [] [doneMsg]).blk := by decide
theorem test_dFrameInv : blkOf (exec .dFrameInv (st shortFrame)) = some (st [] [.error .tooShort 3 shortFrame]).blk := by decide
theorem test_dLine_v54 : blkOf (exec .dLine (st [0x20, 0x20, 0x61, 0x20, 0x62, 0x20, 0x0D, 0x0A])) =
    some (st [] [.text [0x61, 0x20, 0x62]]).blk := by decide
theorem test_dLine_v55 : blkOf (exec .dLine (st [0x61, 0x0D, 0x0A, 0x62])) = some (st [0x62] [.text [0x61]]).blk := by decide
theorem test_dWait : resultOf (exec .dWait (st [0x43, 0x4D])) = some (.drained .quiet) := by decide
theorem test_drain_not_selected : exec .dLine (st [0x61]) = .refused .branchNotSelected := by rfl
/-- The overflow branch of R108, on a capacity small enough to run. -/
theorem test_branchOvf : branchOvf { Params.hw.config with bufCap := some 4, outDepth := 8 } (st [0x61, 0x62, 0x63, 0x64]).blk =
    ((st [0x63, 0x64] [.text [0x61, 0x62]] .run true).blk, .moved) := by decide
/-- R110. -/
theorem test_full_queue : drainStep { Params.hw.config with outDepth := 1 } (st [0x61, 0x0A] [.text [0x62]]).blk =
    ((st [0x61, 0x0A] [.text [0x62]]).blk, .blocked) := by decide

/-! ### Port events (V59 to V76) -/

theorem test_accept_v59 : blkOf (exec (.accept 0x3E) (st [0x6F, 0x6B, 0x43, 0x4D])) =
    some (st [0x43, 0x4D, 0x3E] [.text [0x6F, 0x6B]]).blk := by decide
theorem test_accept_v60 : blkOf (exec (.accept 0x0A) (st [])) = some (st []).blk := by decide
theorem test_accept_v61 : exec (.accept 0x61) (st [] [] .stopped) = .refused .acceptNotEnabled := by rfl
theorem test_accept_v62 : Block.accept { Params.hw.config with outDepth := 1 } 0x61 (st [] [.text [0x61]]).blk = none := by decide
/-- R6: under `INF` and a queue of one message, this hardware's own reset aside. -/
theorem test_accept_inf : blkOf (exec (.accept 0x0A) (st [0x61] [] .run false parInf)) = some (st [] [.text [0x61]]).blk ∧
    exec (.accept 0x62) (st [] [.text [0x61]] .run false parInf) = .refused .acceptNotEnabled := ⟨by decide, rfl⟩
/-- R125: the first byte keeps BUSY at 1 for the two cycles the parameters give; RESET keeps the parameters. -/
theorem test_accept_latency : (match exec (.accept 0x61) (st [] [] .run false parInf) with
    | .next t => decide (t.cyc.busy = 2 ∧ t.par = parInf)
    | .fault _ | .refused _ => false) = true := by decide
theorem test_pop_v63 : blkOf (exec .pop (st [] [.text [0x68], doneMsg])) = some (st [] [doneMsg]).blk ∧
    poppedOf (exec .pop (st [] [.text [0x68], doneMsg])) = some [.text [0x68]] := by decide
theorem test_pop_v64 : exec .pop (st []) = .refused .popNotEnabled := by rfl
theorem test_reconnect_v65 : blkOf (exec .reconnect (st [0x43, 0x4D, 0x3E, 0x00, 0x06, 0x00] [doneMsg] .fatal true)) =
    some (st [] [doneMsg]).blk := by decide
theorem test_cancel_v66 : blkOf (exec .cancel (st [0x61])) = some (st [0x61] [] .stopped).blk := by decide
theorem test_cancel_v67 : blkOf (exec .cancel (st [] [] .fatal)) = some (st [] [] .fatal).blk := by decide
theorem test_terr_v68 : blkOf (exec .terr (st [0x61] [] .stopped)) = some (st [0x61] [] .fatal).blk := by decide
theorem test_reset_v69 : blkOf (exec .reset (st [0x61] [doneMsg] .fatal true)) = some (st []).blk := by decide
/-- V72: the byte is the first of the new connection. -/
theorem test_edge_v72 : blkOf (runEdge { reconnect := true, inValid := true, inData := 0x68 } (st [0x43, 0x4D, 0x3E, 0x00])) =
    some (st [0x68]).blk := by decide
/-- V73: the byte is processed before the engine stops. -/
theorem test_edge_v73 : blkOf (runEdge { inValid := true, inData := 0x0A, cancel := true } (st [0x68, 0x69])) =
    some (st [] [.text [0x68, 0x69]] .stopped).blk := by decide
/-- V76: CANCEL does not leave FATAL. -/
theorem test_edge_v76 : blkOf (runEdge { inErr := true, cancel := true } (st [])) = some (st [] [] .fatal).blk := by decide
/-- R125: a cancel that comes while BUSY stays 1 waits, and acts on the edge at which BUSY falls. -/
theorem test_edge_deferred : blkOf (runEdge { cancel := true } (busySt 2)) = some (st []).blk ∧
    blkOf (runEdge { cancel := true } (busySt 1)) = some (st [] [] .stopped).blk := by decide
/-- PR4: the queue of one entry, the run of `b"a\n"`, POP, `b"b\n"`, POP. -/
theorem test_run_pr4 : Block.run { Params.hw.config with outDepth := 1 }
    [.accept 0x61, .accept 0x0A, .pop, .accept 0x62, .accept 0x0A, .pop] Block.reset =
      some (Block.reset, [.text [0x61], .text [0x62]]) := by decide
theorem test_run_not_enabled : Block.run { Params.hw.config with outDepth := 1 } [.accept 0x61, .accept 0x0A, .accept 0x62] Block.reset = none := by
  decide

/-! ### Witnesses of the statements' hypotheses, clause by clause -/

theorem xorfold_zeros (n : Nat) : xorfold (List.replicate n 0) = 0 := by
  induction n with
  | zero => rfl
  | succ n ih => rw [List.replicate_succ, xorfold_cons, ih]; rfl

/-- A run of one byte outside the anchor and the terminator, however long, is a text run. -/
theorem text_run (n : Nat) : findAnchor (List.replicate n 0x61) = none ∧ findLF (List.replicate n 0x61) = none := by
  constructor
  · rw [findAnchor_eq_none]
    intro k
    rw [List.drop_replicate]
    rcases n - k with _ | _ | _ | m <;> rfl
  · rw [findLF_eq_none]
    intro h
    exact absurd (List.eq_of_mem_replicate h) (by decide)

/-- A run of spaces is a text run that trims to nothing. -/
theorem space_run (n : Nat) : findAnchor (List.replicate n 0x20) = none ∧ findLF (List.replicate n 0x20) = none ∧
    trim (List.replicate n 0x20) = [] := by
  refine ⟨?_, ?_, ?_⟩
  · rw [findAnchor_eq_none]
    intro k
    rw [List.drop_replicate]
    rcases n - k with _ | _ | _ | m <;> rfl
  · rw [findLF_eq_none]
    intro h
    exact absurd (List.eq_of_mem_replicate h) (by decide)
  · have h : (List.replicate n (0x20 : Byte)).dropWhile isWs = [] := by
      rw [List.dropWhile_eq_nil_iff]
      intro b hb
      rw [List.eq_of_mem_replicate hb]; decide
    rw [trim, h]; rfl

theorem trim_run_ne (n : Nat) : trim (List.replicate (n + 1) 0x61) ≠ [] := by
  have h : ∀ m, (List.replicate (m + 1) (0x61 : Byte)).dropWhile isWs = List.replicate (m + 1) 0x61 := fun m => by
    rw [List.replicate_succ, List.dropWhile_cons_of_neg (by decide)]
  rw [trim, h, List.reverse_replicate, h, List.reverse_replicate]
  simp

theorem fullQueue_length : fullQueue.length = Params.hw.config.outDepth := List.length_replicate ..

/-- Below, and at, the capacity of this hardware. -/
theorem belowCap_hw (n : Nat) : belowCap Params.hw.config n = decide (n < 65540) := rfl

theorem below_hw (B : Bytes) (n : Nat) : (st B).BelowCap n ↔ n < 65540 := by
  simp [State.BelowCap, st, State.withBlk, State.resetWith, Params.hw]

theorem at_hw (B : Bytes) (n : Nat) : (st B).AtCap n ↔ 65540 ≤ n := by
  simp [State.AtCap, st, State.withBlk, State.resetWith, Params.hw]

theorem below_inf (B : Bytes) (n : Nat) : (st B [] .run false parInf).BelowCap n := fun c h => by cases h

/-- One message always fits. -/
theorem one_le_depth : 1 ≤ Params.hw.config.outDepth := Params.hw_legal.outDepth

theorem doneMsg_good : Msg.Good Params.hw.config doneMsg := show tryDecode doneFrame = _ by decide

/-- A good state with a message in OQ and a frame pending. -/
theorem witness_good : State.Good (st [0x43, 0x4D, 0x3E, 0x00] [doneMsg]) where
  par := Params.hw_legal
  blk := ⟨.inr (.inr ⟨by decide, by decide⟩), one_le_depth, fun m hm => by
    have : m = doneMsg := by simpa [st] using hm
    rw [this]; exact doneMsg_good⟩
  cyc := ⟨by decide, fun h => absurd h (by decide), by decide⟩
  popped := by simp [st, State.resetWith, Env.start]

/-- Parameters with an unbounded buffer, and with a larger one, beside those of this hardware. -/
theorem witness_ParametersAreArguments :
    parInf.config.Legal ∧ parLarger.config.Legal ∧ Params.hw.config.Legal ∧ parInf.outDepth = some 1 ∧
    parInf.drainLatency[1]? = some 0 ∧ (∃ t, exec (.accept 0x61) (st [] [] .run false parInf) = .next t) ∧
    ∃ t, step (st [0x61] [] .run false parInf) = .next t := by
  refine ⟨?_, ?_, Params.hw_legal, rfl, rfl, ⟨_, rfl⟩, _, rfl⟩ <;> simp [Params.legal_iff, parInf, parLarger]

theorem witness_CrcIsTheRunningXor :
    List.Perm ([1, 2] : Bytes) [2, 1] ∧ ([0x00] : Bytes).length = (1 : Half).toNat ∧ 1 ≤ (1 : Half).toNat :=
  ⟨List.Perm.swap .., by decide, by decide⟩

theorem witness_CrcDetectsExactlyTheNonzeroFolds :
    (([0] : Bytes).length = (1 : Half).toNat ∧ ([1] : Bytes).length = (1 : Half).toNat ∧ 1 ≤ (1 : Half).toNat ∧
      crcCalc [0] 1 = crcRx [0] 1) ∧
    (([1] : Bytes).getD 0 0 ≠ 0 ∧ ∀ j, j ≠ 0 → ([1] : Bytes).getD j 0 = 0) ∧
    (([1] : Bytes).map bitCount).sum % 2 = 1 := by
  refine ⟨by decide, ⟨by decide, fun j hj => ?_⟩, by decide⟩
  obtain ⟨k, rfl⟩ := Nat.exists_eq_succ_of_ne_zero hj
  rfl

/-- V42: bit 0 of both bytes of the command code. -/
theorem witness_CrcDetects_evenFlips :
    let P : Bytes := [0x10, 0x00, 0x02, 0x00, 0x00, 0x12]
    let E : Bytes := [1, 1, 0, 0, 0, 0]
    P.length = (6 : Half).toNat ∧ E.length = (6 : Half).toNat ∧ crcCalc P 6 = crcRx P 6 ∧
    (∀ e ∈ E, e = 0 ∨ e = 1#8 <<< 0) ∧ (E.countP fun e => e != 0) % 2 = 0 := by decide

theorem witness_BuiltFrameSpellsItsLength : (List.replicate 65532 (0 : Byte)).length ≤ 65532 := by
  rw [List.length_replicate]

theorem witness_BuiltFrameDecodesByItsLength :
    buildFrame 0x1000 [] = some shortFrame ∧ (buildFrame 0xFFFF [0, 0]).isSome ∧ (buildFrame 0x1002 [1, 2, 3]).isSome ∧
    buildFrame 0x3003 [0xDE, 0xAD, 0xBE, 0xEF] = some dataFrame ∧ (buildFrame 0 (List.replicate 65532 0)).isSome := by
  refine ⟨by decide, by decide, by decide, by decide, ?_⟩
  simp only [buildFrame, List.length_replicate]
  rfl

theorem witness_RequestRowBuildsItsFrame :
    (List.replicate 65532 (0 : Byte)).length ≤ 65532 ∧ 65532 < (List.replicate 65533 (0 : Byte)).length := by
  simp only [List.length_replicate]; omega

theorem witness_ControlRowsReturnTheirFrame :
    ((0x00 : Byte) ≠ 0x01 ∧ (0x00 : Byte) ≠ 0x02 ∧ (0x00 : Byte) ≠ 0x04) ∧
    ((0xFF : Byte) ≠ 0x01 ∧ (0xFF : Byte) ≠ 0x02 ∧ (0xFF : Byte) ≠ 0x04) := by decide

theorem witness_DataRowReturnsItsFrame :
    (4 ≤ ([0, 0, 0, 0] : Bytes).length ∧ ([0, 0, 0, 0] : Bytes).length ≤ 65532) ∧
    (4 ≤ (List.replicate 65532 (0 : Byte)).length ∧ (List.replicate 65532 (0 : Byte)).length ≤ 65532) := by
  simp only [List.length_replicate]; decide

theorem witness_MalformedRowsReturnTheirOutcome :
    (6 ≤ ([1, 0, 0, 0, 0, 0] : Bytes).length ∧ xorfold [1, 0, 0, 0, 0, 0] ≠ 0x00) ∧
    ((1 :: List.replicate 65534 (0 : Byte)).length ≤ 65535 ∧ xorfold (1 :: List.replicate 65534 0) ≠ 0x00) ∧
    ([] : Bytes).length ≤ 5 ∧ ([0, 0, 0, 0, 0] : Bytes).length ≤ 5 ∧
    ([0x00] : Bytes).length < 2 ∧ ([0x00, 0x01] : Bytes).length < 2 + (be16 0x00 0x01).toNat := by
  refine ⟨by decide, ⟨?_, ?_⟩, by decide, by decide, by decide, by decide⟩
  · simp only [List.length_cons, List.length_replicate]; omega
  · rw [xorfold_cons, xorfold_zeros]; decide

theorem witness_NoFrameTermIsRefused :
    (Instr.tooShort [0, 0, 0, 0, 0, 0]).wf = false ∧ ∀ c p, Instr.tooShort [0, 0, 0, 0, 0, 0] ≠ .req c p :=
  ⟨by decide, fun _ _ h => by cases h⟩

theorem witness_ControlFramesDecodeByTheirTypeByte :
    let F := fun t : Byte => ctrlBytes 0x1000 t 0x0000
    ∀ t ∈ ([0x01, 0x02, 0x04, 0x00] : Bytes), (F t).take 3 = [0x43, 0x4D, 0x3E] ∧ lenField (F t) = 6 ∧ 11 ≤ (F t).length ∧
      xorfold (slice (slice (F t) 5 11) 0 5) = (slice (F t) 5 11).getD 5 0 ∧ (slice (F t) 5 11).getD 2 0 = t := by decide

theorem witness_DataFramesDecodeByTheirLength :
    let P := slice dataFrame 5 12
    dataFrame.take 3 = [0x43, 0x4D, 0x3E] ∧ 7 = lenField dataFrame ∧ 5 + 7 ≤ dataFrame.length ∧
    xorfold (slice P 0 6) = P.getD 6 0 := by decide

theorem witness_MalformedBuffersDecodeByTheFirstCheckThatFails :
    (([0x43, 0x4D] : Bytes).length < 3 ∧ ([0x78, 0x43, 0x4D, 0x3E] : Bytes).take 3 ≠ [0x43, 0x4D, 0x3E]) ∧
    ([0x43, 0x4D, 0x3E, 0x00] : Bytes).length < 5 ∧
    (let S : Bytes := [0x43, 0x4D, 0x3E, 0x00, 0x01]; 5 ≤ S.length ∧ S.length < 5 + (lenField S).toNat) ∧
    (let S : Bytes := [0x43, 0x4D, 0x3E, 0x00, 0x00]; (lenField S).toNat ≤ 5 ∧ 5 + (lenField S).toNat ≤ S.length) ∧
    (let S : Bytes := [0x43, 0x4D, 0x3E, 0x00, 0x05, 0, 0, 0, 0, 0]; (lenField S).toNat ≤ 5 ∧ 5 + (lenField S).toNat ≤ S.length) ∧
    (let S : Bytes := [0x43, 0x4D, 0x3E, 0x00, 0x06, 0, 0, 0, 0, 0, 1]
     6 ≤ (lenField S).toNat ∧ 5 + (lenField S).toNat ≤ S.length ∧ xorfold (slice S 5 10) ≠ S.getD 10 0) := by
  decide

theorem witness_DecodeDependsOnTheDeclaredFrameAlone :
    (anchored doneFrame = true ∧ 5 ≤ doneFrame.length ∧ 5 + (lenField doneFrame).toNat ≤ doneFrame.length ∧
      tryDecode doneFrame ≠ .incomplete) ∧
    (let S : Bytes := [0x43, 0x4D, 0x3E, 0x00, 0x01]
     anchored S = true ∧ S.length < 5 + (lenField S).toNat ∧ tryDecode S = .incomplete) := by decide

theorem witness_DecodeConsumesTheDeclaredFrame :
    tryDecode doneFrame = .ok (Frame.mk 0x1000 .done 0x02 0x0000 [] doneFrame) 11 ∧ tryDecode shortFrame = .invalid .tooShort 3 8 := by
  decide

theorem witness_DecodedRowReturnsTryDecode : decode doneFrame = .ok (.done 0x1000 0x0000) := by rfl

theorem witness_DecodeOfEncodeIsTheFrame :
    (Instr.ack 0 0).wf = true ∧ (Instr.ctrlOther 0xFFFF 0xFF 0xFFFF).wf = true ∧ (Instr.data 0 [0, 0, 0, 0]).wf = true ∧
    (Instr.crcMismatch [1, 0, 0, 0, 0, 0]).wf = true ∧ (Instr.tooShort []).wf = true ∧ (Instr.tooShort [0, 0, 0, 0, 0]).wf = true ∧
    (Instr.incomplete []).wf = true ∧ (Instr.incomplete [0x00, 0x01]).wf = true ∧ (Instr.req 0 [0, 0]).wf = true ∧
    (Instr.req 0 [0, 0, 0, 0]).wf = true ∧ (Instr.dWait).wf = true := by decide

theorem witness_EncodeOfDecodeIsTheDeclaredFrame :
    decode (doneFrame ++ [0x61]) = .ok (.done 0x1000 0x0000) ∧ decode [0x43, 0x4D, 0x3E, 0x00] = .ok (.incomplete [0x00]) := ⟨rfl, rfl⟩

theorem witness_EdgeTakesItsEventsInOrder : (PortIn.rst { rst := true }) = true ∧ (PortIn.rst {}) = false := by decide

theorem witness_PortConditionSelectsItsTransition :
    (encodePort (.accept 0xFF)).isSome ∧ (encodePort .pop).isSome ∧ (encodePort .reconnect).isSome ∧ (encodePort .cancel).isSome ∧
    (encodePort .terr).isSome ∧ (encodePort .reset).isSome := by decide

theorem witness_TrimCutsToTheOutermostTextBytes :
    let isWhite := fun b : Byte => b ∈ ([0x09, 0x0A, 0x0B, 0x0C, 0x0D, 0x20] : Bytes)
    (∀ b ∈ ([0x20, 0x0D] : Bytes), isWhite b) ∧
    (let S : Bytes := [0x20, 0x68, 0x69, 0x0D]
     ¬ isWhite (S.getD 1 0) ∧ ¬ isWhite (S.getD (3 - 1) 0) ∧ (∀ i < 1, isWhite (S.getD i 0)) ∧
       ∀ i, 3 ≤ i → i < S.length → isWhite (S.getD i 0)) := by
  refine ⟨by decide, by decide, by decide, by decide, fun i h1 h2 => ?_⟩
  obtain rfl : i = 3 := by simp at h2; omega
  decide

theorem witness_WaitingBranchesAreQuiet :
    (st []).blk.B = [] ∧ (findAnchor [0x43, 0x4D, 0x3E] = some 0 ∧ tryDecode [0x43, 0x4D, 0x3E] = .incomplete) ∧
    (findAnchor (List.replicate 65539 0x61) = none ∧ findLF (List.replicate 65539 0x61) = none ∧
      (st (List.replicate 65539 0x61)).BelowCap (List.replicate 65539 (0x61 : Byte)).length) ∧
    (st (List.replicate 65540 0x61) [] .run false parInf).BelowCap (List.replicate 65540 (0x61 : Byte)).length := by
  refine ⟨rfl, by decide, ⟨(text_run _).1, (text_run _).2, ?_⟩, below_inf _ _⟩
  rw [List.length_replicate, below_hw]; decide

theorem witness_TextBeforeTheAnchorLeaves :
    (findAnchor [0x61, 0x43, 0x4D, 0x3E] = some 1 ∧ (st [0x61, 0x43, 0x4D, 0x3E]).blk.OQ.length < (st [0x61, 0x43, 0x4D, 0x3E]).cfg.outDepth) ∧
    (findAnchor [0x20, 0x43, 0x4D, 0x3E] = some 1 ∧ textOut (slice [0x20, 0x43, 0x4D, 0x3E] 0 1) = []) :=
  ⟨⟨by decide, one_le_depth⟩, by decide⟩

theorem witness_CompleteFrameLeavesAsItsMessage :
    (st doneFrame).blk.OQ.length < (st doneFrame).cfg.outDepth ∧
    (findAnchor doneFrame = some 0 ∧ tryDecode doneFrame = .ok (Frame.mk 0x1000 .done 0x02 0x0000 [] doneFrame) 11) ∧
    (findAnchor shortFrame = some 0 ∧ tryDecode shortFrame = .invalid .tooShort 3 8) := ⟨one_le_depth, by decide, by decide⟩

theorem witness_TerminatedLineLeaves :
    (findAnchor [0x61, 0x0A] = none ∧ findLF [0x61, 0x0A] = some 1 ∧ (st [0x61, 0x0A]).blk.OQ.length < (st [0x61, 0x0A]).cfg.outDepth) ∧
    (findAnchor [0x0A] = none ∧ findLF [0x0A] = some 0 ∧ textOut (slice [0x0A] 0 0) = []) :=
  ⟨⟨by decide, by decide, one_le_depth⟩, by decide⟩

theorem witness_FullBufferIsFlushed :
    (st []).cfg.Legal ∧
    (let B : Bytes := List.replicate 65540 0x61
     findAnchor B = none ∧ findLF B = none ∧ (st B).AtCap B.length ∧ (st B).blk.OQ.length < (st B).cfg.outDepth) ∧
    (let B : Bytes := List.replicate 65540 0x20
     findAnchor B = none ∧ findLF B = none ∧ (st B).AtCap B.length ∧ textOut (slice B 0 (B.length - 2)) = []) := by
  refine ⟨Params.hw_legal, ⟨(text_run _).1, (text_run _).2, ?_, one_le_depth⟩, (space_run _).1, (space_run _).2.1, ?_, ?_⟩
  · rw [List.length_replicate, at_hw]
  · rw [List.length_replicate, at_hw]
  · rw [slice_zero, List.take_replicate, textOut, if_pos (space_run _).2.2]

theorem witness_FullQueueHoldsTheIteration :
    (st [] fullQueue).cfg.outDepth ≤ (st [] fullQueue).blk.OQ.length ∧
    (findAnchor [0x61, 0x43, 0x4D, 0x3E] = some 1 ∧ trim (slice [0x61, 0x43, 0x4D, 0x3E] 0 1) ≠ []) ∧
    (findAnchor doneFrame = some 0 ∧ tryDecode doneFrame = .ok (Frame.mk 0x1000 .done 0x02 0x0000 [] doneFrame) 11) ∧
    (findAnchor shortFrame = some 0 ∧ tryDecode shortFrame = .invalid .tooShort 3 8) ∧
    (findAnchor [0x61, 0x0A] = none ∧ findLF [0x61, 0x0A] = some 1 ∧ trim (slice [0x61, 0x0A] 0 1) ≠ []) ∧
    (let B : Bytes := List.replicate 65540 0x61
     findAnchor B = none ∧ findLF B = none ∧ (st B).AtCap B.length ∧ trim (slice B 0 (B.length - 2)) ≠ []) := by
  refine ⟨fullQueue_length.ge, by decide, by decide, by decide, by decide, (text_run _).1, (text_run _).2, ?_, ?_⟩
  · rw [List.length_replicate, at_hw]
  · rw [slice_zero, List.take_replicate, List.length_replicate]
    exact trim_run_ne 65537

theorem witness_DrainRowRunsWhereItIsSelected :
    selectBranch Params.hw.config [0x61, 0x0A] = .line ∧ selectBranch Params.hw.config [0x61, 0x0A] ≠ .overflow := by decide

theorem drainStep_run (n : Nat) (hn : 65540 ≤ n) :
    drainStep Params.hw.config (st (List.replicate n 0x61)).blk = (flushed (st (List.replicate n 0x61)).blk, .moved) := by
  have hc : belowCap Params.hw.config (List.replicate n (0x61 : Byte)).length = false := by
    rw [belowCap_hw, List.length_replicate]; simpa using hn
  exact (drainStep_ovf (by intro h; have := congrArg List.length h; simp [st] at this; omega) (text_run n).1 (text_run n).2 hc).trans
    (branchOvf_fits (.inr one_le_depth))

theorem witness_MovedIterationDropsAndTheLoopEnds :
    Params.hw.config.Legal ∧
    (drainStep Params.hw.config (st doneFrame).blk = ((st [] [doneMsg]).blk, .moved) ∧ selectBranch Params.hw.config doneFrame = .frameOk) ∧
    selectBranch Params.hw.config shortFrame = .frameInv ∧
    (∃ blk', drainStep Params.hw.config (st (List.replicate 65540 0x61)).blk = (blk', .moved)) ∧
    selectBranch Params.hw.config (List.replicate 65540 0x61) = .overflow := by
  refine ⟨Params.hw_legal, by decide, by decide, ⟨_, drainStep_run _ le_rfl⟩, ?_⟩
  have hne : (List.replicate 65540 (0x61 : Byte)) ≠ [] := by
    intro h; have := congrArg List.length h; rw [List.length_replicate] at this; cases this
  rw [selectBranch_text hne (text_run _).1 (text_run _).2, belowCap_hw, List.length_replicate]
  rfl

theorem witness_QuietExactlyInTheThreeShapes : Params.hw.config.Legal := Params.hw_legal

theorem witness_MessageStandsForTheDroppedBytes :
    drainStep Params.hw.config (st [0x61, 0x0A]).blk = ((st [] [.text [0x61]]).blk, .moved) := by decide

theorem witness_AcceptEmitsAtMostOneMessage :
    Params.hw.config.Legal ∧
    (Quiescent Params.hw.config [] ∧ (st []).blk.acceptEnabled Params.hw.config = true) ∧
    (Quiescent Params.hw.config [0x43, 0x4D] ∧ (st [0x43, 0x4D]).blk.acceptEnabled Params.hw.config = true) ∧
    (Quiescent Params.hw.config [0x43, 0x4D, 0x3E] ∧ (st [0x43, 0x4D, 0x3E]).blk.acceptEnabled Params.hw.config = true) :=
  ⟨Params.hw_legal, ⟨.inl rfl, by decide⟩, ⟨.inr (.inl ⟨by decide, by decide, by decide, by decide⟩), by decide⟩,
    .inr (.inr ⟨by decide, by decide⟩), by decide⟩

theorem witness_AcceptedTextByteDrains :
    ((st []).cfg.Legal ∧ (st []).cyc.busy = 0 ∧ (st []).blk.eng = .run ∧ (st []).blk.OQ.length < (st []).cfg.outDepth) ∧
    (findAnchor [] = none ∧ findLF [] = none ∧ (st []).BelowCap 0) ∧
    (findAnchor [0x43, 0x4D] = none ∧ findLF [0x43, 0x4D] = none ∧ ([0x43, 0x4D] : Bytes).drop 0 = [0x43, 0x4D]) ∧
    (let B : Bytes := List.replicate 65539 0x61
     findAnchor B = none ∧ findLF B = none ∧ (st B).BelowCap B.length ∧ (st B).par.bufCap = some (B.length + 1) ∧
       (0x61 : Byte) ≠ 0x0A ∧ (0x61 : Byte) ≠ 0x3E) ∧
    (let B : Bytes := List.replicate 65538 0x61
     findAnchor B = none ∧ findLF B = none ∧ (st B).BelowCap B.length ∧ (st B).par.bufCap ≠ some (B.length + 1)) := by
  refine ⟨⟨Params.hw_legal, rfl, rfl, one_le_depth⟩, ⟨by decide, by decide, (below_hw [] 0).2 (by decide)⟩, by decide,
    ⟨(text_run _).1, (text_run _).2, ?_, ?_, by decide, by decide⟩, (text_run _).1, (text_run _).2, ?_, ?_⟩
  · rw [List.length_replicate, below_hw]; decide
  · rw [List.length_replicate]; rfl
  · rw [List.length_replicate, below_hw]; decide
  · rw [List.length_replicate]; decide

/-- The same boundary under a larger capacity and under `INF`: a text of 65540 bytes, which this hardware cannot hold. -/
theorem witness_AcceptedTextByteDrains_capacities :
    let B : Bytes := List.replicate 65540 0x61
    findAnchor B = none ∧ findLF B = none ∧
    ((st B [] .run false parLarger).cfg.Legal ∧ (st B [] .run false parLarger).BelowCap B.length ∧
      (st B [] .run false parLarger).par.bufCap = some (B.length + 1)) ∧
    ((st B [] .run false parInf).cfg.Legal ∧ (st B [] .run false parInf).BelowCap B.length ∧
      (st B [] .run false parInf).par.bufCap ≠ some (B.length + 1) ∧
      (st B [] .run false parInf).blk.OQ.length < (st B [] .run false parInf).cfg.outDepth) := by
  refine ⟨(text_run _).1, (text_run _).2, ⟨witness_ParametersAreArguments.2.1, fun c h => ?_, ?_⟩,
    witness_ParametersAreArguments.1, fun c h => (by cases h), fun h => (by cases h), Nat.one_pos⟩
  · obtain rfl : 65541 = c := Option.some.inj h
    rw [List.length_replicate]; decide
  · rw [List.length_replicate]; rfl

theorem witness_AcceptedFrameByteDrains :
    ((st [0x43, 0x4D, 0x3E]).cfg.Legal ∧ (st [0x43, 0x4D, 0x3E]).cyc.busy = 0 ∧
      (st [0x43, 0x4D, 0x3E]).blk.OQ.length < (st [0x43, 0x4D, 0x3E]).cfg.outDepth) ∧
    (FramePending [0x43, 0x4D, 0x3E] ∧ tryDecode ([0x43, 0x4D, 0x3E] ++ [0x00]) = .incomplete) ∧
    (FramePending (doneFrame.take 10) ∧ tryDecode (doneFrame.take 10 ++ [0x12]) = .ok (Frame.mk 0x1000 .done 0x02 0 [] doneFrame) 11) ∧
    (FramePending [0x43, 0x4D, 0x3E, 0x00] ∧ tryDecode ([0x43, 0x4D, 0x3E, 0x00] ++ [0x00]) = .invalid .tooShort 0 5) :=
  ⟨⟨Params.hw_legal, rfl, one_le_depth⟩, ⟨⟨by decide, by decide⟩, by decide⟩,
    ⟨⟨by decide, by decide⟩, by decide⟩, ⟨by decide, by decide⟩, by decide⟩

theorem witness_AcceptAndPopRunExactlyWhereEnabled :
    ∃ t u, exec (.accept 0x61) (st []) = .next t ∧ exec .pop (st [] [doneMsg]) = .next u := ⟨_, _, rfl, rfl⟩

theorem witness_PopDeliversTheHead : (st [] [doneMsg]).blk.OQ = doneMsg :: [] ∧ (st []).blk.OQ = [] := ⟨rfl, rfl⟩

theorem witness_ReconnectKeepsTheQueueAndResetEmptiesIt : (PortIn.rst { rst := true }) = true := rfl

theorem witness_CancelStopsAndTerrIsFatal : (st []).blk.eng = .run ∧ (st [] [] .fatal).blk.eng ≠ .run := by decide

theorem witness_StoppedEngineFreezesTheBuffer :
    (st [0x61] [doneMsg] .stopped).blk.eng ≠ .run ∧ Label.reconnect ∉ [Label.pop, .cancel, .terr] ∧
    Label.reset ∉ [Label.pop, .cancel, .terr] ∧
    Block.run Params.hw.config [.pop, .cancel, .terr] (st [0x61] [doneMsg] .stopped).blk = some ((st [0x61] [] .fatal).blk, [doneMsg]) := by
  decide

theorem witness_EngineAndOverflowHaveOnlyTheirWriters :
    (∃ t, exec .cancel (st []) = .next t ∧ t.blk.eng ≠ (st []).blk.eng) ∧
    (∃ t, exec .reconnect (st [] [] .run true) = .next t ∧ (st [] [] .run true).blk.ovf = true ∧ t.blk.ovf = false) ∧
    (∃ t, exec .dOvf (st (List.replicate 65540 0x61)) = .next t ∧ t.blk.ovf = true) := by
  have hd := drainStep_run 65540 le_rfl
  have hs : selectBranch Params.hw.config (List.replicate 65540 0x61) = .overflow := witness_MovedIterationDropsAndTheLoopEnds.2.2.2.2
  generalize List.replicate 65540 (0x61 : Byte) = B at hd hs
  refine ⟨⟨_, rfl, by decide⟩, ⟨_, rfl, rfl, rfl⟩, ((st B).withBlk (flushed (st B).blk)).withResult (.drained .moved), ?_, rfl⟩
  have hb : branchOvf Params.hw.config (st B).blk = (flushed (st B).blk, .moved) := by
    rw [← hd, drainStep, show selectBranch Params.hw.config (st B).blk.B = .overflow from hs]; rfl
  show runBranch .overflow branchOvf _ = _
  rw [runBranch, if_pos (show selectBranch (st B).cfg (st B).blk.B = .overflow from hs), show (st B).cfg = Params.hw.config from rfl, hb]

theorem witness_QueueLosesOnlyByPopOrReset :
    (∃ t, exec .pop (st [] [doneMsg]) = .next t) ∧ (∃ t, exec .dLine (st [0x0A]) = .next t) := ⟨⟨_, rfl⟩, ⟨_, rfl⟩⟩

theorem witness_CodecRowsWriteOnlyTheirResult :
    (∃ t, exec (.ack 0 0) (st []) = .next t) ∧ (∃ t, exec (.data 0 [0, 0, 0, 0]) (st []) = .next t) ∧
    (∃ t, exec (.req 0 []) (st []) = .next t) := ⟨⟨_, rfl⟩, ⟨_, rfl⟩, ⟨_, rfl⟩⟩

theorem witness_DrainRowsFrame : (∃ t, exec (Branch.toInstr .line) (st [0x61, 0x0A]) = .next t) ∧ Branch.line ≠ .overflow ∧
    (∃ t, exec (Branch.toInstr .empty) (st []) = .next t) := ⟨⟨_, rfl⟩, by decide, ⟨_, rfl⟩⟩

theorem witness_PortRowsFrame :
    (∃ t, exec (.accept 0x61) (st []) = .next t) ∧ (∃ t, exec .pop (st [] [doneMsg]) = .next t) ∧
    (∃ t, exec .reconnect (st []) = .next t) ∧ (∃ t, exec .cancel (st []) = .next t) ∧ (∃ t, exec .terr (st []) = .next t) ∧
    (∃ t, exec .reset (st []) = .next t) := ⟨⟨_, rfl⟩, ⟨_, rfl⟩, ⟨_, rfl⟩, ⟨_, rfl⟩, ⟨_, rfl⟩, ⟨_, rfl⟩⟩

theorem witness_OutputsFollowTheState :
    State.Good (st [0x43, 0x4D, 0x3E, 0x00] [doneMsg]) ∧ (st [0x43, 0x4D, 0x3E, 0x00] [doneMsg]).cyc.busy = 0 ∧
    (portOut false (st [0x43, 0x4D, 0x3E, 0x00] [doneMsg])).outValid = true := ⟨witness_good, rfl, rfl⟩

theorem witness_OfferedMessageStaysUntilPopped :
    State.Good (st [0x43, 0x4D, 0x3E, 0x00] [doneMsg]) ∧ outValid false (st [0x43, 0x4D, 0x3E, 0x00] [doneMsg]) = true ∧
    ∃ t, runEdge { reconnect := true } (st [0x43, 0x4D, 0x3E, 0x00] [doneMsg]) = .next t :=
  ⟨witness_good, rfl, let ⟨_, _, _, _, t, _, h⟩ := runEdge_stages _ _ rfl; ⟨t, h⟩⟩

theorem witness_StepRunsTheDecodedInstruction :
    decodeEdge ((st []).cyc.effective { cancel := true }) (inReady false (st [])) (outValid false (st [])) = [.cancel] ∧
    decode doneFrame = .ok (.done 0x1000 0x0000) ∧ decode [0x78] = .error .misaligned ∧ (st []).env.stim = [] := ⟨rfl, rfl, rfl, rfl⟩

theorem witness_BusyDefersTheControls :
    (1 < (busySt 2).cyc.busy ∧ ∃ t, runEdge { cancel := true } (busySt 2) = .next t) ∧
    ((busySt 1).cyc.busy = 1 ∧ ∃ t, runEdge { cancel := true } (busySt 1) = .next t) :=
  ⟨⟨by decide, _, rfl⟩, rfl, _, rfl⟩

theorem witness_StepKeepsTheInvariant :
    State.Good (st [0x43, 0x4D, 0x3E, 0x00] [doneMsg]) ∧ ∃ t, step (st [0x43, 0x4D, 0x3E, 0x00] [doneMsg]) = .next t :=
  ⟨witness_good, let ⟨_, _, _, _, t, _, h⟩ := runEdge_stages {} _ rfl; ⟨t, h⟩⟩

theorem witness_StepRefinesTheTransitionSystem :
    State.Good (st [0x43, 0x4D, 0x3E, 0x00] [doneMsg]) ∧
    ∃ t, step ((st [0x43, 0x4D, 0x3E, 0x00] [doneMsg]).withStim [.edge { cancel := true }]) = .next t :=
  ⟨witness_good, _, rfl⟩

theorem witness_FrameFedByBytesGivesItsOneMessage :
    Params.hw.config.Legal ∧ (st []).blk.eng = .run ∧ (st []).blk.OQ.length < (st []).cfg.outDepth ∧
    (anchored doneFrame = true ∧ doneFrame.length = 5 + (lenField doneFrame).toNat) ∧
    (let F : Bytes := [0x43, 0x4D, 0x3E, 0x00, 0x00]; anchored F = true ∧ 5 ≤ F.length ∧ F.length = 5 + (lenField F).toNat) :=
  ⟨Params.hw_legal, rfl, one_le_depth, by decide, by decide⟩

theorem witness_LineFedByBytesGivesItsText :
    (findAnchor [] = none ∧ lf ∉ ([] : Bytes)) ∧
    (let X : Bytes := List.replicate 65539 0x61
     findAnchor X = none ∧ lf ∉ X ∧ belowCap Params.hw.config X.length = true) := by
  refine ⟨by decide, (text_run _).1, (findLF_eq_none _).1 (text_run _).2, ?_⟩
  rw [belowCap_hw, List.length_replicate]; rfl

/-- Two runs of one stream: queues of depth 1 and 2, and pops at other points. -/
theorem witness_MessagesDependOnTheStreamAlone :
    let cfg := fun d => Config.mk none d (fun _ => 0) (fun _ => 0)
    let ls₁ : List Label := [.accept 0x61, .accept 0x0A, .pop, .accept 0x62, .accept 0x0A]
    let ls₂ : List Label := [.accept 0x61, .accept 0x0A, .accept 0x62, .accept 0x0A, .pop, .cancel]
    Label.reset ∉ ls₁ ∧ Label.reset ∉ ls₂ ∧ ls₁.filter Label.ofStream = ls₂.filter Label.ofStream ∧
    (Block.run (cfg 1) ls₁ Block.reset).isSome ∧ (Block.run (cfg 2) ls₂ Block.reset).isSome := by decide

theorem witness_MessagesDependOnTheStreamAlone_legal : ∀ d, 1 ≤ d → (Config.mk none d (fun _ => 0) (fun _ => 0)).Legal := fun _ h =>
  ⟨fun _ hc => (by cases hc), h⟩

end Sys2Proof.Tests
end

section
/-! SUPPORT. The three families of rows and what a row that answers next can do. -/

namespace Sys2Proof.Machine

/-- The nine codec rows: each is one call of a pure function (R18). -/
abbrev IsCodecRow (i : Instr) : Prop :=
  (∃ c st, i = .ack c st) ∨ (∃ c st, i = .done c st) ∨ (∃ c st, i = .nack c st) ∨ (∃ c ty st, i = .ctrlOther c ty st) ∨
    (∃ c b, i = .data c b) ∨ (∃ p, i = .crcMismatch p) ∨ (∃ p, i = .tooShort p) ∨ (∃ r, i = .incomplete r) ∨
    (∃ c p, i = .req c p)

/-- Every row is a codec row, a drain branch, or a transition of R117. -/
theorem row_families (i : Instr) : IsCodecRow i ∨ (∃ br : Branch, i = br.toInstr) ∨ ∃ l : Label, i = l.toInstr := by
  cases i with
  | ack | done | nack | ctrlOther | data | crcMismatch | tooShort | incomplete | req => left; simp [IsCodecRow]
  | dEmpty => exact .inr (.inl ⟨.empty, rfl⟩)
  | dPrefix => exact .inr (.inl ⟨.textRun, rfl⟩)
  | dFrameWait => exact .inr (.inl ⟨.frameWait, rfl⟩)
  | dFrameOk => exact .inr (.inl ⟨.frameOk, rfl⟩)
  | dFrameInv => exact .inr (.inl ⟨.frameInv, rfl⟩)
  | dLine => exact .inr (.inl ⟨.line, rfl⟩)
  | dOvf => exact .inr (.inl ⟨.overflow, rfl⟩)
  | dWait => exact .inr (.inl ⟨.wait, rfl⟩)
  | accept b => exact .inr (.inr ⟨.accept b, rfl⟩)
  | pop => exact .inr (.inr ⟨.pop, rfl⟩)
  | reconnect => exact .inr (.inr ⟨.reconnect, rfl⟩)
  | cancel => exact .inr (.inr ⟨.cancel, rfl⟩)
  | terr => exact .inr (.inr ⟨.terr, rfl⟩)
  | reset => exact .inr (.inr ⟨.reset, rfl⟩)

/-- A codec row that answers next has written the result of its call alone. -/
theorem exec_codecRow_next {i : Instr} {s t : State} (hi : IsCodecRow i) (h : exec i s = .next t) :
    ∃ r, t = s.withResult r := by
  rcases exec_frameRow i s hi with ⟨r, hr⟩ | hr <;> rw [hr] at h <;> cases h
  exact ⟨r, rfl⟩

/-- A drain row that answers next was selected, and has run one `DrainStep` (R101). -/
theorem exec_branchRow_next {br : Branch} {s t : State} (h : exec br.toInstr s = .next t) :
    selectBranch s.cfg s.blk.B = br ∧
      t = (s.withBlk (drainStep s.cfg s.blk).1).withResult (.drained (drainStep s.cfg s.blk).2) := by
  rw [exec_branchRow, runBranch] at h
  split_ifs at h with hsel
  cases h
  exact ⟨hsel, by rw [drainStep, hsel]⟩

/-- A first event that leads on leads through a next state. -/
theorem runEvents_cons_next {i : Instr} {rest : List Instr} {s t : State} (h : runEvents (i :: rest) s = .next t) :
    ∃ u, exec i s = .next u ∧ runEvents rest u = .next t := by
  rw [runEvents] at h
  cases hi : exec i s with
  | next u => rw [hi] at h; exact ⟨u, rfl, h⟩
  | fault r => rw [hi] at h; cases h
  | refused r => rw [hi] at h; cases h

/-- A stand-alone `TryDecode` that answers next has run the row its buffer decodes to. -/
theorem runTryDecode_next {S : Bytes} {s t : State} (h : runTryDecode S s = .next t) :
    ∃ i, decode S = .ok i ∧ exec i s = .next t := by
  rw [runTryDecode] at h
  cases hd : decode S with
  | error e => rw [hd] at h; cases h
  | ok i => rw [hd] at h; exact ⟨i, rfl, h⟩

end Sys2Proof.Machine
end

section
/-! PROOF. The parameters of R6 (spec/00_scope.md section 3): the configuration takes them as they are given, and nothing writes them. -/

namespace Sys2Proof.Machine

/-- The listed latencies are used over and over. -/
theorem Params.config_drainLatency {par : Params} {k l : Nat} (hl : par.drainLatency[k]? = some l) (n : Nat) :
    par.config.drainLatency (par.drainLatency.length * n + k) = l := by
  obtain ⟨hk, -⟩ := List.getElem?_eq_some_iff.1 hl
  have hmod : (par.drainLatency.length * n + k) % par.drainLatency.length = k := by
    rw [Nat.mul_add_mod, Nat.mod_eq_of_lt hk]
  simp [Params.config, hmod, hl]

theorem exec_label_par {l : Label} {s t : State} (h : exec l.toInstr s = .next t) : t.par = s.par := by
  cases l with
  | accept b => obtain ⟨-, -, rfl⟩ := exec_accept_next h; rfl
  | pop => obtain ⟨m, rest, -, rfl⟩ := exec_pop_next h; rfl
  | reconnect | cancel | terr | reset => cases h; rfl

theorem exec_par {i : Instr} {s t : State} (h : exec i s = .next t) : t.par = s.par := by
  rcases row_families i with hi | ⟨br, rfl⟩ | ⟨l, rfl⟩
  · obtain ⟨r, rfl⟩ := exec_codecRow_next hi h; rfl
  · obtain ⟨-, rfl⟩ := exec_branchRow_next h; rfl
  · exact exec_label_par h

theorem runEvents_par {is : List Instr} {s t : State} (h : runEvents is s = .next t) : t.par = s.par := by
  induction is generalizing s with
  | nil => cases h; rfl
  | cons i rest ih =>
    obtain ⟨u, hi, hrest⟩ := runEvents_cons_next h
    exact (ih hrest).trans (exec_par hi)

/-- An edge advances the clock, which is no parameter, and takes its events. -/
theorem runEdge_par {p : PortIn} {s t : State} (h : runEdge p s = .next t) : t.par = s.par := by
  rw [runEdge] at h
  simpa using runEvents_par h

theorem runStim_par {x : Stim} {s t : State} (h : runStim x s = .next t) : t.par = s.par := by
  cases x with
  | edge p => exact runEdge_par h
  | tryDecode S => obtain ⟨i, -, hi⟩ := runTryDecode_next h; exact exec_par hi
  | buildFrame cmd params => exact exec_par (i := .req cmd params) h
  | drainStep => exact exec_par (i := (selectBranch s.cfg s.blk.B).toInstr) h

theorem step_par {s t : State} (h : step s = .next t) : t.par = s.par := by
  rw [step, stepStim] at h
  split at h
  · exact runEdge_par h
  · simpa using runStim_par h

/-- Settles O60: R6's values at reset and their legality, the configuration's reading of them, and one frame lemma each for
`exec` and `step`. -/
theorem parametersAreArguments : Obligations.ParametersAreArguments :=
  ⟨rfl, Params.legal_iff, fun _ _ => ⟨rfl, Params.config_outDepth⟩,
    fun _ n _ _ _ hl => Params.config_drainLatency hl n, fun _ _ _ => exec_par, fun _ _ => step_par⟩

end Sys2Proof.Machine
end

section
/-! PROOF. The state record (spec/10_state.md): the code points of its fields, who writes `eng` and `ovf`, what a codec call
leaves alone, RECONNECT and RESET, and the state after reset. -/

namespace Sys2Proof

/-! ### Code points -/

/-- Reading the `kind` field inverts its encoding (R72). -/
theorem Kind.ofCode_eq_some_iff (c : BitVec 3) (k : Kind) : Kind.ofCode c = some k ↔ k.code = c := by
  constructor
  · intro h
    unfold Kind.ofCode at h
    split_ifs at h with h0 h1 h2 h3 h4 <;> cases h
    exacts [h0.symm, h1.symm, h2.symm, h3.symm, h4.symm]
  · rintro rfl; cases k <;> rfl

/-- Reading the `reason` field inverts its encoding (R73). -/
theorem Reason.ofCode_eq_some_iff (c : BitVec 2) (r : Reason) : Reason.ofCode c = some r ↔ r.code = c := by
  constructor
  · intro h
    unfold Reason.ofCode at h
    split_ifs at h with h1 h2 <;> cases h
    exacts [h1.symm, h2.symm]
  · rintro rfl; cases r <;> rfl

namespace Machine

/-- Reading `st_state` inverts the encoding of `eng` (R16). -/
theorem Eng.ofCode_eq_some_iff (c : BitVec 2) (e : Eng) : Eng.ofCode c = some e ↔ e.code = c := by
  constructor
  · intro h
    unfold Eng.ofCode at h
    split_ifs at h with h0 h1 h2 <;> cases h
    exacts [h0.symm, h1.symm, h2.symm]
  · rintro rfl; cases e <;> rfl

/-- Settles O21: the encodings by their tables, the readings as their inverses. -/
theorem codePointsAreTheSpecs : Obligations.CodePointsAreTheSpecs :=
  ⟨⟨rfl, rfl, rfl, rfl⟩, ⟨rfl, rfl, rfl, rfl, rfl⟩, ⟨rfl, rfl⟩, Eng.ofCode_eq_some_iff, Kind.ofCode_eq_some_iff,
    Reason.ofCode_eq_some_iff, fun _ => rfl, fun _ => rfl, fun _ _ _ => rfl⟩

/-! ### The writers of `eng` and `ovf` -/

theorem drainStep_eng (cfg : Config) (blk : Block) : (drainStep cfg blk).1.eng = blk.eng := by
  rcases drainStep_cases cfg blk with h | h | ⟨n, m, o, h, -⟩ <;> rw [h]

/-- An iteration sets `ovf` in the overflow branch only (R108). -/
theorem drainStep_ovf_eq_or (cfg : Config) (blk : Block) :
    (drainStep cfg blk).1.ovf = blk.ovf ∨
      ((drainStep cfg blk).1.ovf = true ∧ selectBranch cfg blk.B = .overflow) := by
  rcases drainStep_cases cfg blk with h | h | ⟨n, m, o, h, ho⟩ <;> rw [h]
  exacts [.inl rfl, .inl rfl, ho]

/-- The capacity condition of D_OVF, in the state's parameters (R6, R108). -/
theorem State.belowCap_cfg_eq_false_iff (s : State) (n : Nat) : belowCap s.cfg n = false ↔ s.AtCap n :=
  belowCap_eq_false_iff s.cfg n

/-- `eng` has four writers (R16, R30). -/
theorem exec_eng {i : Instr} {s t : State} (h : exec i s = .next t) :
    t.blk.eng = s.blk.eng ∨ i = .cancel ∨ i = .terr ∨ i = .reconnect ∨ i = .reset := by
  rcases row_families i with hi | ⟨br, rfl⟩ | ⟨l, rfl⟩
  · obtain ⟨r, rfl⟩ := exec_codecRow_next hi h; exact .inl rfl
  · obtain ⟨-, rfl⟩ := exec_branchRow_next h; exact .inl (drainStep_eng _ _)
  · cases l with
    | accept b =>
      obtain ⟨-, -, rfl⟩ := exec_accept_next h
      exact .inl (drainToQuiescence_any s.cfg (s.blk.append b)).1
    | pop => obtain ⟨m, rest, -, rfl⟩ := exec_pop_next h; exact .inl rfl
    | reconnect | cancel | terr | reset => right; simp [Label.toInstr]

/-- The rows that clear `ovf` (R17). -/
def ClearsOvf (i : Instr) : Prop := i = .reconnect ∨ i = .reset

/-- The rows that set `ovf`, where B is at the capacity or is brought there (R17). -/
def SetsOvf (i : Instr) (s : State) : Prop :=
  (i = .dOvf ∧ s.AtCap s.blk.B.length) ∨ ((∃ b, i = .accept b) ∧ s.AtCap (s.blk.B.length + 1))

/-- Everything a row can do to `ovf`. -/
theorem exec_ovf {i : Instr} {s t : State} (h : exec i s = .next t) :
    t.blk.ovf = s.blk.ovf ∨ (t.blk.ovf = false ∧ ClearsOvf i) ∨ (t.blk.ovf = true ∧ SetsOvf i s) := by
  rcases row_families i with hi | ⟨br, rfl⟩ | ⟨l, rfl⟩
  · obtain ⟨r, rfl⟩ := exec_codecRow_next hi h; exact .inl rfl
  · obtain ⟨hsel, rfl⟩ := exec_branchRow_next h
    rcases drainStep_ovf_eq_or s.cfg s.blk with ho | ⟨ho, hovf⟩
    · exact .inl ho
    · obtain rfl : br = .overflow := hsel.symm.trans hovf
      exact .inr (.inr ⟨ho, .inl ⟨rfl, (s.belowCap_cfg_eq_false_iff _).1 (belowCap_of_overflow hovf)⟩⟩)
  · cases l with
    | accept b =>
      obtain ⟨-, -, rfl⟩ := exec_accept_next h
      obtain ⟨-, -, -, ho | ⟨ho, hcap⟩⟩ := drainToQuiescence_any s.cfg (s.blk.append b)
      · exact .inl ho
      · have hlen : (s.blk.append b).B.length = s.blk.B.length + 1 := by simp
        exact .inr (.inr ⟨ho, .inr ⟨⟨b, rfl⟩, (s.belowCap_cfg_eq_false_iff _).1 (hlen ▸ hcap)⟩⟩)
    | pop => obtain ⟨m, rest, -, rfl⟩ := exec_pop_next h; exact .inl rfl
    | reconnect => cases h; exact .inr (.inl ⟨rfl, .inl rfl⟩)
    | reset => cases h; exact .inr (.inl ⟨rfl, .inr rfl⟩)
    | cancel => cases h; exact .inl (Block.stop_ovf _)
    | terr => cases h; exact .inl rfl

/-- Settles O43: a change of `eng` or `ovf` leaves only the writers among the cases of `exec_eng` and `exec_ovf`. -/
theorem engineAndOverflowHaveOnlyTheirWriters : Obligations.EngineAndOverflowHaveOnlyTheirWriters := by
  intro i s t h
  refine ⟨(exec_eng h).resolve_left, fun hs ht => ?_, fun hs ht => ?_⟩ <;>
    rcases exec_ovf h with ho | ⟨ho, hw⟩ | ⟨ho, hw⟩
  · simp [hs, ht] at ho
  · exact hw
  · simp [ht] at ho
  · simp [hs, ht] at ho
  · simp [ht] at ho
  · exact hw

/-! ### Codec calls, RECONNECT and RESET -/

/-- Settles O45: a codec row that answers next is `withResult`, which no other field sees. -/
theorem codecRowsWriteOnlyTheirResult : Obligations.CodecRowsWriteOnlyTheirResult := by
  intro i s t hi h
  obtain ⟨r, rfl⟩ := exec_codecRow_next hi h
  exact ⟨rfl, rfl, rfl, rfl, rfl⟩

theorem exec_reconnect (s : State) : exec .reconnect s = .next (s.withBlk s.blk.restart) := rfl

theorem exec_reset (s : State) :
    exec .reset s = .next ((s.withBlk Block.reset).withCyc { Cyc.reset with tick := s.cyc.tick }) := rfl

/-- `rst` shuts out every other event (R123, R124). -/
theorem decodeEdge_rst {p : PortIn} (h : p.rst = true) (inR outV : Bool) : decodeEdge p inR outV = [.reset] := by
  rw [decodeEdge, if_pos h]

/-- Settles O40: both rows are written out, and their blocks compared field by field. -/
theorem reconnectKeepsTheQueueAndResetEmptiesIt : Obligations.ReconnectKeepsTheQueueAndResetEmptiesIt :=
  ⟨rfl, fun _ inR outV h => decodeEdge_rst h inR outV, fun _ => ⟨rfl, rfl⟩, fun s =>
    ⟨exec_reconnect s, ⟨_, exec_reset s, rfl, rfl, rfl, rfl⟩, ⟨_, _, exec_reconnect s, exec_reset s, rfl⟩⟩⟩

/-! ### The state after reset -/

theorem Block.reset_good (cfg : Config) : Block.reset.Good cfg where
  quiescent := .inl rfl
  depth := Nat.zero_le _
  msgs := by simp

theorem Cyc.reset_good (queued : Nat) : Cyc.reset.Good queued where
  shown := le_rfl
  unseen := fun h => absurd h (Nat.lt_irrefl 0)
  pend := fun _ => ⟨rfl, rfl, rfl⟩

theorem State.resetWith_good {par : Params} (h : par.config.Legal) : (State.resetWith par).Good where
  par := h
  blk := Block.reset_good _
  cyc := Cyc.reset_good _
  popped := by simp [Env.start]

/-- Settles O54: the reset block and the reset cycle state are good, and this hardware's parameters are legal. -/
theorem resetStateIsGood : Obligations.ResetStateIsGood :=
  ⟨fun _ => State.resetWith_good, State.resetWith_good Params.hw_legal⟩

end Machine

end Sys2Proof
end

section
/-! PROOF. The outputs (spec/10_state.md R25, R26, R29, R34): what each says of the state, their values after reset, and that an
offered message stays offered until it is taken. -/

namespace Sys2Proof.Machine

/-! ### The handshake outputs as conditions on the state -/

/-- `out_valid` (R26). -/
theorem outValid_iff (rst : Bool) (s : State) : outValid rst s = true ↔ rst = false ∧ 0 < s.visible := by
  simp [outValid]

theorem inReady_rst (s : State) : inReady true s = false := rfl

theorem outValid_rst (s : State) : outValid true s = false := rfl

/-- The capacity condition of a state is that of its configuration (R6). -/
theorem State.belowCap_cfg_iff (s : State) (n : Nat) : belowCap s.cfg n = true ↔ s.BelowCap n := belowCap_iff s.cfg n

/-- The messages at the end of OQ that the output port does not show yet (R125). -/
def Cyc.hidden (c : Cyc) : Nat := if c.seenIn = 0 then 0 else c.unseen

theorem State.visible_eq (s : State) : s.visible = s.blk.OQ.length - s.cyc.hidden := rfl

theorem Cyc.hidden_of_shown {c : Cyc} (h : c.seenIn = 0) : c.hidden = 0 := if_pos h

theorem Cyc.hidden_le (c : Cyc) : c.hidden ≤ c.unseen := by
  unfold Cyc.hidden; split <;> omega

/-- A passing cycle can only bring the hidden messages closer (R125). -/
theorem Cyc.hidden_advance_le (c : Cyc) (p : PortIn) : (c.advance p).hidden ≤ c.hidden := by
  by_cases h : c.seenIn = 0
  · rw [Cyc.hidden_of_shown (by simp [Cyc.advance, h])]; exact Nat.zero_le _
  · have hc : c.hidden = c.unseen := if_neg h
    rw [hc]; exact (c.advance p).hidden_le

theorem State.visible_le (s : State) : s.visible ≤ s.blk.OQ.length := Nat.sub_le _ _

/-- `out_msg` is the head of OQ while `out_valid` is 1 (R26). -/
theorem portOut_outMsg {rst : Bool} {s : State} {m : Msg} {rest : List Msg} (hv : outValid rst s = true)
    (hq : s.blk.OQ = m :: rest) : (portOut rst s).outMsg = m := by
  simp [portOut, hv, hq]

/-! ### The capacity in a good state -/

/-- A frame that is not complete is shorter than the longest frame. -/
theorem FramePending.length_lt {B : Bytes} (h : FramePending B) : B.length < 65540 := by
  obtain ⟨ha, hd⟩ := h
  obtain ⟨rest, rfl⟩ := (anchored_iff B).1 ha
  match rest with
  | [] | [_] => simp [magic]
  | a :: b :: body =>
    have hL := be16_toNat_lt a b
    have hbody : body.length < (be16 a b).toNat := by
      by_contra hn
      rw [tryDecode_magic, if_neg hn] at hd
      unfold spanOutcome at hd
      split_ifs at hd
    simp [magic]; omega

/-- A quiescent buffer is below every legal capacity (R113). -/
theorem Quiescent.belowCap {cfg : Config} {B : Bytes} (hl : cfg.Legal) (h : Quiescent cfg B) :
    belowCap cfg B.length = true := by
  rcases h with rfl | ⟨-, -, -, hcap⟩ | hf
  · exact belowCap_of_legal hl (by simp)
  · exact hcap
  · exact belowCap_of_legal hl hf.length_lt

/-- Settles O48: `in_ready` and `out_valid` from their conditions, the capacity from the shape of a quiescent buffer. -/
theorem outputsFollowTheState : Obligations.OutputsFollowTheState := by
  intro s rst
  refine ⟨?_, fun hb hg => ?_, fun m rest => portOut_outMsg, fun hg => ?_, rfl, rfl⟩
  · have hin : inReady rst s = true ↔ _ := inReady_iff rst s
    rw [acceptEnabled_iff, State.belowCap_cfg_iff] at hin
    exact hin.trans (and_congr_right fun _ => and_left_comm)
  · have hseen : s.cyc.seenIn = 0 := Nat.le_zero.1 (hb ▸ hg.cyc.shown)
    have hvis : s.visible = s.blk.OQ.length := by rw [State.visible_eq, Cyc.hidden_of_shown hseen, Nat.sub_zero]
    exact hvis ▸ outValid_iff rst s
  · exact (s.belowCap_cfg_iff _).1 (hg.blk.quiescent.belowCap hg.par)

/-- After reset ACCEPT is enabled under every legal capacity and depth (R34). -/
theorem Block.reset_acceptEnabled {cfg : Config} (h : cfg.Legal) : Block.reset.acceptEnabled cfg = true :=
  (acceptEnabled_iff _ _).2 ⟨rfl, h.outDepth, belowCap_of_legal h (by simp)⟩

/-- Settles O49: the reset block accepts and its queue is empty, and `rst` holds both handshakes at 0. -/
theorem outputsAfterReset : Obligations.OutputsAfterReset :=
  ⟨fun par h => ⟨(inReady_iff false (.resetWith par)).2 ⟨rfl, rfl, Block.reset_acceptEnabled h⟩, rfl, rfl, rfl⟩,
    fun s => ⟨inReady_rst s, outValid_rst s⟩⟩

/-! ### An offer stands until it is taken -/

/-- From `s` to `t` the queue has only grown at its end, and the port shows no fewer messages. -/
structure State.KeepsOffer (s t : State) : Prop where
  queue : s.blk.OQ <+: t.blk.OQ
  shown : s.visible ≤ t.visible

theorem State.KeepsOffer.refl (s : State) : s.KeepsOffer s := ⟨List.prefix_rfl, le_rfl⟩

theorem State.KeepsOffer.trans {s t u : State} (h : s.KeepsOffer t) (h' : t.KeepsOffer u) : s.KeepsOffer u :=
  ⟨h.queue.trans h'.queue, h.shown.trans h'.shown⟩

/-- A kept offer is the same message, still offered (R26). -/
theorem State.KeepsOffer.offer {s t : State} (h : s.KeepsOffer t) (hv : outValid false s = true) :
    outValid false t = true ∧ (portOut false t).outMsg = (portOut false s).outMsg := by
  have hpos : 0 < s.visible := ((outValid_iff _ _).1 hv).2
  have hv' : outValid false t = true := (outValid_iff _ _).2 ⟨rfl, hpos.trans_le h.shown⟩
  obtain ⟨m, rest, hq⟩ : ∃ m rest, s.blk.OQ = m :: rest :=
    List.exists_cons_of_length_pos (hpos.trans_le s.visible_le)
  obtain ⟨new, hnew⟩ := h.queue
  have hq' : t.blk.OQ = m :: (rest ++ new) := by rw [← hnew, hq, List.cons_append]
  exact ⟨hv', by rw [portOut_outMsg hv hq, portOut_outMsg hv' hq']⟩

/-- Another block with the same queue keeps the offer. -/
theorem State.keepsOffer_withBlk {s : State} {blk : Block} (h : blk.OQ = s.blk.OQ) : s.KeepsOffer (s.withBlk blk) :=
  ⟨by rw [State.withBlk_blk, h], by rw [State.visible_eq, State.visible_eq, State.withBlk_blk, State.withBlk_cyc, h]⟩

theorem State.keepsOffer_advance (s : State) (p : PortIn) : s.KeepsOffer (s.withCyc (s.cyc.advance p)) :=
  ⟨List.prefix_rfl, Nat.sub_le_sub_left (s.cyc.hidden_advance_le p) _⟩

theorem State.keepsOffer_begun (s : State) (p : PortIn) : s.KeepsOffer (s.begun p) := by
  have hadv := s.keepsOffer_advance p
  simp only [State.begun]
  split
  · exact hadv.trans (State.keepsOffer_withBlk rfl)
  · exact hadv

/-- A drain hides at most the messages it has put behind the others. -/
theorem State.keepsOffer_accepted (s : State) (b : Byte) : s.KeepsOffer (s.accepted b) := by
  obtain ⟨-, ⟨new, hnew⟩, -, -⟩ := drainToQuiescence_any s.cfg (s.blk.append b)
  rw [Block.append_OQ] at hnew
  have hlen : (s.accepted b).blk.OQ.length = s.blk.OQ.length + new.length :=
    (congrArg List.length hnew).trans List.length_append
  have hhid : (s.accepted b).cyc.hidden ≤ (s.accepted b).blk.OQ.length - s.blk.OQ.length := Cyc.hidden_le _
  refine ⟨⟨new, hnew.symm⟩, s.visible_le.trans ?_⟩
  rw [State.visible_eq]; omega

/-- An edge that takes no message keeps the offer at each of its stages. -/
theorem EdgeStages.keepsOffer {p : PortIn} {s s1 s2 s3 s4 s5 : State} (h : EdgeStages p s s1 s2 s3 s4 s5)
    (ho : p.outReady = false) : s.KeepsOffer s5 := by
  obtain ⟨-, h1, h2, h3, h4, h5⟩ := h
  have k1 : s.KeepsOffer s1 := h1 ▸ s.keepsOffer_begun p
  obtain rfl : s2 = s1 := by simpa [ho] using h2
  have k3 : s2.KeepsOffer s3 := by
    split at h3
    · exact h3.2 ▸ s2.keepsOffer_accepted p.inData
    · exact h3 ▸ .refl s2
  have k4 : s3.KeepsOffer s4 := by
    rw [h4]; split
    · exact State.keepsOffer_withBlk rfl
    · exact .refl s3
  have k5 : s4.KeepsOffer s5 := by
    rw [h5]; split
    · exact State.keepsOffer_withBlk (Block.stop_OQ _)
    · exact .refl s4
  exact k1.trans (k3.trans (k4.trans k5))

/-- Settles O50: every stage of an edge without RESET and POP keeps the offer. -/
theorem offeredMessageStaysUntilPopped : Obligations.OfferedMessageStaysUntilPopped := by
  intro s t p _ hv hr ho h
  obtain ⟨s1, s2, s3, s4, s5, hst, he⟩ := runEdge_stages p s hr
  obtain rfl : s5 = t := by rw [he] at h; cases h; rfl
  exact (hst.keepsOffer ho).offer hv

end Sys2Proof.Machine
end

section
/-! PROOF. The storage (spec/20_memory.md section 5): what becomes of the bytes that leave B (R47), and that OQ loses nothing
but what a POP delivers, or to RESET (R15, R50). -/

namespace Sys2Proof.Machine

/-! ### The bytes an iteration drops -/

/-- From the queue `Q` to `Q'`, nothing or one message is sent for the dropped bytes `D` (R47, R50). -/
def AccountsFor (Q Q' : List Msg) (D : Bytes) : Prop :=
  (Q' = Q ∧ ∀ b ∈ D, isWs b = true) ∨
  (∃ t z, Q' = Q ++ [.text (trim t)] ∧ D = t ++ z ∧ trim t ≠ [] ∧ (z = [] ∨ z = [lf])) ∨
  (∃ f, Q' = Q ++ [.binary f] ∧ f.raw = D) ∨
  (∃ r L, Q' = Q ++ [.error r L D])

/-- Where Trim leaves nothing, every byte is in `WS` (R99). -/
theorem isWs_of_trim_eq_nil {S : Bytes} (h : trim S = []) : ∀ b ∈ S, isWs b = true := by
  obtain ⟨a, z, hS, ha, hz⟩ := trim_split S
  rw [hS, h, List.append_nil]
  exact List.forall_mem_append.2 ⟨ha, hz⟩

/-- A text run that leaves alone or with its terminator is accounted for by `EmitText` (R100). -/
theorem accountsFor_textMsg (Q : List Msg) (t : Bytes) {z : Bytes} (hz : z = [] ∨ z = [lf]) :
    AccountsFor Q (Q ++ (textMsg t).toList) (t ++ z) := by
  rw [textMsg_toList]
  split_ifs with ht
  · have hzws : ∀ b ∈ z, isWs b = true := by
      rcases hz with rfl | rfl <;> decide
    exact .inl ⟨List.append_nil Q, List.forall_mem_append.2 ⟨isWs_of_trim_eq_nil ht, hzws⟩⟩
  · exact .inr (.inl ⟨t, z, rfl, rfl, ht, hz⟩)

/-- A line and its terminator, which leave together (R107). -/
theorem take_succ_of_findLF {B : Bytes} {j : Nat} (h : findLF B = some j) : B.take (j + 1) = B.take j ++ [lf] := by
  rw [List.take_add_one, ((findLF_eq_some B j).1 h).1, Option.toList_some]

theorem drainStep_accounts {cfg : Config} {blk blk' : Block} (h : drainStep cfg blk = (blk', .moved)) :
    ∃ n, blk'.B = blk.B.drop n ∧ AccountsFor blk.OQ blk'.OQ (blk.B.take n) := by
  have text : ∀ n, AccountsFor blk.OQ (blk.OQ ++ (textMsg (blk.B.take n)).toList) (blk.B.take n) := fun n => by
    simpa using accountsFor_textMsg blk.OQ (blk.B.take n) (.inl rfl)
  rcases drainStep_moved h with ⟨k, -, -, rfl⟩ | ⟨f, n, -, hd, rfl⟩ | ⟨r, L, n, -, -, rfl⟩ | ⟨j, -, hj, rfl⟩ |
    ⟨-, -, -, -, rfl⟩
  · exact ⟨k, rfl, text k⟩
  · obtain ⟨-, -, hraw, -⟩ := tryDecode_consumes.1 f n hd
    exact ⟨n, rfl, .inr (.inr (.inl ⟨f, rfl, hraw⟩))⟩
  · exact ⟨n, rfl, .inr (.inr (.inr ⟨r, L, rfl⟩))⟩
  · exact ⟨j + 1, rfl, take_succ_of_findLF hj ▸ accountsFor_textMsg blk.OQ (blk.B.take j) (.inr rfl)⟩
  · exact ⟨_, rfl, text _⟩

/-- Settles O34: the branches of a moving iteration, the three text branches by one lemma about `EmitText`. -/
theorem messageStandsForTheDroppedBytes : Obligations.MessageStandsForTheDroppedBytes := by
  intro cfg blk blk' h
  obtain ⟨n, hB, hacc⟩ := drainStep_accounts h
  exact ⟨n, hB, by rwa [slice_zero]⟩

/-! ### The writers of OQ -/

theorem drainStep_OQ (cfg : Config) (blk : Block) : ∃ new, (drainStep cfg blk).1.OQ = blk.OQ ++ new := by
  rcases drainStep_cases cfg blk with h | h | ⟨n, m, o, h, -⟩ <;> rw [h]
  exacts [⟨[], (List.append_nil _).symm⟩, ⟨[], (List.append_nil _).symm⟩, ⟨m.toList, rfl⟩]

/-- Only POP and RESET take messages out of OQ (R15). -/
theorem exec_OQ {i : Instr} {s t : State} (hpop : i ≠ .pop) (hreset : i ≠ .reset) (h : exec i s = .next t) :
    ∃ new, t.blk.OQ = s.blk.OQ ++ new := by
  have kept : ∀ Q : List Msg, Q = s.blk.OQ → ∃ new, Q = s.blk.OQ ++ new := fun _ hQ => ⟨[], by simp [hQ]⟩
  rcases row_families i with hi | ⟨br, rfl⟩ | ⟨l, rfl⟩
  · obtain ⟨r, rfl⟩ := exec_codecRow_next hi h; exact kept _ rfl
  · obtain ⟨-, rfl⟩ := exec_branchRow_next h; exact drainStep_OQ s.cfg s.blk
  · cases l with
    | accept b =>
      obtain ⟨-, -, rfl⟩ := exec_accept_next h
      obtain ⟨-, hQ, -, -⟩ := drainToQuiescence_any s.cfg (s.blk.append b)
      exact hQ
    | pop => exact absurd rfl hpop
    | reset => exact absurd rfl hreset
    | cancel => cases h; exact kept _ (Block.stop_OQ _)
    | reconnect | terr => cases h; exact kept _ rfl

/-- Only POP delivers a message (R50). -/
theorem exec_popped {i : Instr} {s t : State} (hpop : i ≠ .pop) (h : exec i s = .next t) :
    t.env.popped = s.env.popped := by
  rcases row_families i with hi | ⟨br, rfl⟩ | ⟨l, rfl⟩
  · obtain ⟨r, rfl⟩ := exec_codecRow_next hi h; rfl
  · obtain ⟨-, rfl⟩ := exec_branchRow_next h; rfl
  · cases l with
    | accept b => obtain ⟨-, -, rfl⟩ := exec_accept_next h; rfl
    | pop => exact absurd rfl hpop
    | reconnect | cancel | terr | reset => cases h; rfl

/-- POP delivers the head that it takes out of OQ (R119). -/
theorem exec_pop_delivers {s t : State} (h : exec .pop s = .next t) :
    ∃ m, s.blk.OQ = m :: t.blk.OQ ∧ t.env.popped = s.env.popped ++ [m] := by
  obtain ⟨m, rest, hQ, rfl⟩ := exec_pop_next h
  exact ⟨m, hQ, rfl⟩

/-- Settles O44: OQ and the delivered messages, each by its writers, and POP by what it answers. -/
theorem queueLosesOnlyByPopOrReset : Obligations.QueueLosesOnlyByPopOrReset := by
  intro i s t h
  refine ⟨fun hpop hreset => exec_OQ hpop hreset h, ?_, fun hpop => exec_popped hpop h⟩
  rintro rfl
  exact exec_pop_delivers h

end Sys2Proof.Machine
end

section
/-! PROOF. The encoding (spec/30_encoding.md section 3, R63): an ill-formed frame term is refused, and the class map of R63
and the algorithm of R81 agree. An anchored buffer is incomplete, or one frame and what follows it; `frameOf` carries both readers
to the frame's payload, where they agree class by class. -/

namespace Sys2Proof.Machine

/-! ### A row with a constraint -/

theorem retDecodedIf_of_wf {w : Bool} (h : w = true) (o : DecodeOut) (s : State) :
    retDecodedIf w o s = .next (s.withResult (.decoded o)) := if_pos h

theorem retDecodedIf_of_not_wf {w : Bool} (h : w = false) (o : DecodeOut) (s : State) :
    retDecodedIf w o s = .refused .noSuchFrame := if_neg (by simp [h])

/-- Settles O9: the five rows with a constraint test it before they answer; every other row but REQ has none. -/
theorem noFrameTermIsRefused : Obligations.NoFrameTermIsRefused := by
  intro i s h hreq
  cases i with
  | ctrlOther | data | crcMismatch | tooShort | incomplete => exact retDecodedIf_of_not_wf h _ s
  | req c p => exact absurd rfl (hreq c p)
  | _ => cases h

/-- The row `i` is well-formed and its call returns `o`, in every state. -/
def RowReturns (i : Instr) (o : DecodeOut) : Prop :=
  i.wf = true ∧ ∀ s : State, exec i s = .next (s.withResult (.decoded o))

/-! ### The two readings of a payload -/

/-- A payload that passes the check of R77 is closed by the CRC byte of R76. -/
theorem withCrc_dropLast {P : Bytes} (hne : P ≠ []) (hx : xorfold P = 0) : withCrc P.dropLast = P := by
  have hP := List.dropLast_append_getLast hne
  have hlast : xorfold P.dropLast = P.getLast hne := by
    rw [← hP] at hx
    simpa [byte_xor_eq_zero] using hx
  rw [withCrc, hlast, hP]

/-- A payload of six bytes that passes the check is a control payload (R58). -/
theorem eq_ctrlPayload {P : Bytes} (hl : P.length = ctrlLen) (hx : xorfold P = 0) :
    ∃ c t st, P = ctrlPayload c t st := by
  match P, hl with
  | [c1, c0, t, s1, s0, q], _ =>
    exact ⟨be16 c1 c0, t, be16 s1 s0, by simpa [ctrlPayload] using (withCrc_dropLast (List.cons_ne_nil _ _) hx).symm⟩

/-- A longer payload that passes the check is a command code, a body and the CRC byte (R59). -/
theorem eq_dataPayload {P : Bytes} (hl : ctrlLen < P.length) (hx : xorfold P = 0) :
    ∃ c body, P = withCrc ([hiByte c, loByte c] ++ body) ∧ 4 ≤ body.length := by
  match P, hl with
  | c1 :: c0 :: q :: rest, hl =>
    refine ⟨be16 c1 c0, (q :: rest).dropLast, ?_, ?_⟩
    · simpa using (withCrc_dropLast (List.cons_ne_nil _ _) hx).symm
    · simp [ctrlLen] at hl ⊢; omega

theorem spanOutcome_tooShort {L : Half} (h : L.toNat ≤ 5) (P raw : Bytes) :
    spanOutcome L P raw = .invalid .tooShort L (frameSize L) := if_pos (by simp only [ctrlLen]; omega)

theorem spanOutcome_crcMismatch {L : Half} {P : Bytes} (h : 6 ≤ L.toNat) (hx : xorfold P ≠ 0) (raw : Bytes) :
    spanOutcome L P raw = .invalid .crcMismatch L (frameSize L) := by
  rw [spanOutcome, if_neg (by simp only [ctrlLen]; omega), if_pos hx]

theorem spanOutcome_ok {L : Half} {P : Bytes} (h : 6 ≤ L.toNat) (hx : xorfold P = 0) (raw : Bytes) :
    spanOutcome L P raw = .ok (frameFrom raw P L) (frameSize L) := by
  rw [spanOutcome, if_neg (by simp only [ctrlLen]; omega), if_neg (not_not.2 hx)]

/-- What the span of a payload decodes to. -/
abbrev payloadOutcome (P : Bytes) : DecodeOut := spanOutcome (BitVec.ofNat 16 P.length) P (frameOf P)

theorem cmdField_withCrc (c : Half) (rest : Bytes) : cmdField (withCrc ([hiByte c, loByte c] ++ rest)) = c := be16_hi_lo c

theorem typeField_ctrlPayload (c : Half) (t : Byte) (st : Half) : typeField (ctrlPayload c t st) = t := rfl

theorem statusField_ctrlPayload (c : Half) (t : Byte) (st : Half) : statusField (ctrlPayload c t st) = st := be16_hi_lo st

/-- The data of a DATA frame are what its command code and CRC enclose (R62). -/
theorem dataField_withCrc (c : Half) {body : Bytes} {L : Half} (hL : L.toNat = body.length + 3) :
    dataField (withCrc ([hiByte c, loByte c] ++ body)) L = body := by
  simp [dataField, slice, withCrc, hL]

/-- The outcome of a control frame (R87 to R90). -/
theorem payloadOutcome_ctrlPayload (c : Half) (t : Byte) (st : Half) :
    payloadOutcome (ctrlPayload c t st) = okCtrl c (kindOfType t) t st (frameOf (ctrlPayload c t st)) := by
  have hl : (ctrlPayload c t st).length = 6 := rfl
  have hraw := take_frameOf (P := ctrlPayload c t st) (hl.trans_le (by decide))
  rw [hl] at hraw
  have hx : xorfold (ctrlPayload c t st) = 0 := xorfold_withCrc _
  have hcmd : cmdField (ctrlPayload c t st) = c := cmdField_withCrc c _
  rw [payloadOutcome, hl, spanOutcome_ok (by decide) hx, frameFrom, if_pos (by decide), hraw, hcmd,
    typeField_ctrlPayload, statusField_ctrlPayload]
  rfl

/-- The outcome of a DATA frame (R91). -/
theorem payloadOutcome_data (c : Half) {body : Bytes} (h4 : 4 ≤ body.length) (hle : body.length ≤ 65532) :
    payloadOutcome (withCrc ([hiByte c, loByte c] ++ body)) =
      .ok { cmd := c, kind := .data, typ := 0x00, status := 0x0000, data := body, raw := encode (.data c body) }
        (hdrLen + (body.length + 3)) := by
  have hl : (withCrc ([hiByte c, loByte c] ++ body)).length = body.length + 3 := by simp [withCrc]
  have h16 : body.length + 3 ≤ 65535 := by omega
  have hL : (BitVec.ofNat 16 (body.length + 3)).toNat = body.length + 3 := lenOf_toNat h16
  have hne : BitVec.ofNat 16 (body.length + 3) ≠ 6 := by
    intro h
    have h6 : 6 = body.length + 3 := (congrArg BitVec.toNat h).symm.trans hL
    omega
  have hraw := take_frameOf (hl.trans_le h16)
  rw [hl] at hraw
  rw [payloadOutcome, hl, spanOutcome_ok (by omega) (xorfold_withCrc _), frameFrom, if_neg hne, hraw, cmdField_withCrc,
    dataField_withCrc c hL, frameSize_lenOf h16]
  rfl

/-- The row of a type byte returns the kind of that byte (R64). -/
theorem rowReturns_ctrlRow (c : Half) (t : Byte) (st : Half) :
    RowReturns (ctrlRow c t st) (okCtrl c (kindOfType t) t st (frameOf (ctrlPayload c t st))) := by
  unfold ctrlRow kindOfType
  split_ifs with h1 h2 h4
  · exact h1 ▸ ⟨rfl, fun _ => rfl⟩
  · exact h2 ▸ ⟨rfl, fun _ => rfl⟩
  · exact h4 ▸ ⟨rfl, fun _ => rfl⟩
  · have hwf : (Instr.ctrlOther c t st).wf = true := by simpa [Instr.wf, and_assoc] using ⟨h1, h2, h4⟩
    exact ⟨hwf, retDecodedIf_of_wf hwf _⟩

/-- The class of a payload returns the outcome of its span: the two readings of R63 and R81, class by class. -/
theorem rowReturns_classify {P : Bytes} (h : P.length ≤ maxLen) : RowReturns (classify P) (payloadOutcome P) := by
  have hL : (BitVec.ofNat 16 P.length).toNat = P.length := lenOf_toNat h
  have hT : frameSize (BitVec.ofNat 16 P.length) = hdrLen + P.length := frameSize_lenOf h
  by_cases h5 : P.length ≤ 5
  · have hwf : (Instr.tooShort P).wf = true := decide_eq_true h5
    rw [classify, if_pos h5, payloadOutcome, spanOutcome_tooShort (hL.trans_le h5), hT]
    exact ⟨hwf, retDecodedIf_of_wf hwf _⟩
  have h6 : 6 ≤ P.length := by omega
  by_cases hx : xorfold P = 0
  · rcases h6.eq_or_lt with hl | hl
    · obtain ⟨c, t, st, rfl⟩ := eq_ctrlPayload hl.symm hx
      rw [classify_ctrlPayload, payloadOutcome_ctrlPayload]
      exact rowReturns_ctrlRow c t st
    · obtain ⟨c, body, rfl, h4⟩ := eq_dataPayload hl hx
      have hle : body.length ≤ 65532 := by simp [withCrc, maxLen] at h; omega
      have hwf : (Instr.data c body).wf = true := by simp [Instr.wf, h4, hle]
      rw [classify_data c body h4, payloadOutcome_data c h4 hle]
      exact ⟨hwf, retDecodedIf_of_wf hwf _⟩
  · have hwf : (Instr.crcMismatch P).wf = true := by simpa [Instr.wf, h6, h] using hx
    rw [classify, if_neg h5, if_pos hx, payloadOutcome, spanOutcome_crcMismatch (h6.trans_eq hL.symm) hx, hT]
    exact ⟨hwf, retDecodedIf_of_wf hwf _⟩

/-! ### The two readings of a buffer -/

/-- A length field and a payload that has its length are a frame. -/
theorem magic_append_eq_frameOf {a b : Byte} {body : Bytes} (h : (be16 a b).toNat ≤ body.length) :
    magic ++ a :: b :: body = frameOf (body.take (be16 a b).toNat) ++ body.drop (be16 a b).toNat := by
  rw [frameOf_append, List.length_take_of_le h, BitVec.ofNat_toNat, BitVec.setWidth_eq, hiByte_be16, loByte_be16,
    List.take_append_drop]

/-- What follows the anchor stops short of the declared end, or the buffer is a frame and what follows it (R93). -/
theorem incomplete_or_frame (rest : Bytes) :
    stillIncomplete rest = true ∨ ∃ P X, P.length ≤ maxLen ∧ magic ++ rest = frameOf P ++ X := by
  match rest with
  | [] | [_] => exact .inl rfl
  | a :: b :: body =>
    rcases Nat.lt_or_ge body.length (be16 a b).toNat with h | h
    · exact .inl (decide_eq_true h)
    · have hlt := be16_toNat_lt a b
      exact .inr ⟨_, _, by rw [List.length_take_of_le h]; exact Nat.le_of_lt_succ hlt, magic_append_eq_frameOf h⟩

/-- Both readers wait for the declared end (R83, R84). -/
theorem decode_and_tryDecode_incomplete {rest : Bytes} (h : stillIncomplete rest = true) :
    decode (magic ++ rest) = .ok (.incomplete rest) ∧ tryDecode (magic ++ rest) = .incomplete := by
  rw [decode_magic]
  match rest with
  | [] | [_] => exact ⟨rfl, tryDecode_short (by simp)⟩
  | a :: b :: body =>
    have hlt : body.length < (be16 a b).toNat := of_decide_eq_true h
    rw [decodeAnchored_cons, tryDecode_magic, if_pos hlt, if_pos hlt]
    exact ⟨rfl, rfl⟩

/-- The row the decoder gives returns what `TryDecode` returns. -/
theorem rowReturns_of_decode {S : Bytes} {i : Instr} (h : decode S = .ok i) : RowReturns i (tryDecode S) := by
  obtain ⟨rest, rfl, -⟩ := decode_ok h
  rcases incomplete_or_frame rest with hinc | ⟨P, X, hP, hS⟩
  · obtain ⟨hd, ht⟩ := decode_and_tryDecode_incomplete hinc
    obtain rfl : Instr.incomplete rest = i := Except.ok.inj (hd.symm.trans h)
    exact ht ▸ ⟨hinc, retDecodedIf_of_wf hinc _⟩
  · rw [hS, decode_frameOf hP] at h
    obtain rfl : classify P = i := Except.ok.inj h
    rw [hS, tryDecode_frameOf X hP]
    exact rowReturns_classify hP

/-- Settles O15: both readers reject exactly what lacks the anchor, and agree on the rest by `rowReturns_of_decode`. -/
theorem decodedRowReturnsTryDecode : Obligations.DecodedRowReturnsTryDecode :=
  fun S => ⟨(decode_error_iff S).trans (tryDecode_misaligned_iff S).symm, fun _ => rowReturns_of_decode⟩

end Sys2Proof.Machine
end

section
/-! PROOF. The CRC (spec/40_frame_codec.md R76 to R78): what the XOR fold does to a permutation, to a change of the bytes, and to
the number of set bits. R77's form of the check, `crc_passes_iff`, turns each clause into a fact about the fold. -/

namespace Sys2Proof

/-! ### The XOR fold of a changed sequence -/

theorem xorfold_replicate_zero (n : Nat) : xorfold (List.replicate n 0) = 0 := by
  induction n with
  | zero => rfl
  | succ n ih => rw [List.replicate_succ, xorfold_cons, ih]; rfl

/-- The fold is blind to the order of the bytes (R76). -/
theorem xorfold_perm {Q R : Bytes} (h : Q.Perm R) : xorfold Q = xorfold R := by
  induction h with
  | nil => rfl
  | cons q _ ih => simp [ih]
  | swap a b l => simp only [xorfold_cons, ← BitVec.xor_assoc, BitVec.xor_comm a b]
  | trans _ _ ih₁ ih₂ => exact ih₁.trans ih₂

/-- The fold of a changed sequence is the fold of both XORed (R78). -/
theorem xorfold_zipWith {P E : Bytes} (h : P.length = E.length) :
    xorfold (List.zipWith (fun p e => p ^^^ e) P E) = xorfold P ^^^ xorfold E := by
  induction P generalizing E with
  | nil => obtain rfl := List.length_eq_zero_iff.1 h.symm; rfl
  | cons p P ih =>
    cases E with
    | nil => cases h
    | cons e E =>
      rw [List.zipWith_cons_cons, xorfold_cons, xorfold_cons, xorfold_cons, ih (Nat.succ.inj h)]
      ac_rfl

/-- The fold of a sequence with at most one nonzero byte is that byte. -/
theorem xorfold_eq_getD {E : Bytes} {k : Nat} (h : ∀ j, j ≠ k → E.getD j 0 = 0) : xorfold E = E.getD k 0 := by
  induction E generalizing k with
  | nil => rfl
  | cons e E ih =>
    rw [xorfold_cons]
    cases k with
    | zero =>
      have hE : xorfold E = E.getD E.length 0 := ih fun j _ => h (j + 1) (Nat.succ_ne_zero j)
      rw [hE]; simp
    | succ k =>
      have he : e = 0 := h 0 (Nat.succ_ne_zero k).symm
      have hE : xorfold E = E.getD k 0 := ih fun j hj => h (j + 1) (mt Nat.succ.inj hj)
      rw [he, hE]; simp

/-- Bytes that are all zero or all the same cancel in pairs (R78). -/
theorem xorfold_of_zero_or_eq {E : Bytes} {m : Byte} (h : ∀ e ∈ E, e = 0 ∨ e = m) :
    xorfold E = if (E.countP fun e => e != 0) % 2 = 0 then 0 else m := by
  induction E with
  | nil => rfl
  | cons e E ih =>
    obtain ⟨he, hE⟩ := List.forall_mem_cons.1 h
    rw [xorfold_cons, ih hE]
    by_cases h0 : e = 0
    · simp [h0]
    · obtain rfl : e = m := he.resolve_left h0
      rw [List.countP_cons_of_pos (by simpa using h0)]
      rcases Nat.mod_two_eq_zero_or_one (E.countP fun e => e != 0) with hc | hc
      · rw [if_pos hc, if_neg (by omega)]; exact BitVec.xor_zero
      · rw [if_neg (by omega), if_pos (by omega)]; exact BitVec.xor_self

/-! ### The number of set bits -/

/-- Where two counts are taken of one list, the elements counted by exactly one of them have the parity of the sum. -/
theorem countP_xor_mod_two (f g : Nat → Bool) (l : List Nat) :
    (l.countP fun i => f i ^^ g i) % 2 = (l.countP f + l.countP g) % 2 := by
  induction l with
  | nil => rfl
  | cons i l ih =>
    simp only [List.countP_cons]
    cases f i <;> cases g i <;> simp <;> omega

namespace Machine

theorem bitCount_xor_mod_two (a b : Byte) : bitCount (a ^^^ b) % 2 = (bitCount a + bitCount b) % 2 := by
  simp only [bitCount, BitVec.getLsbD_xor]
  exact countP_xor_mod_two ..

/-- The fold keeps the parity of the number of set bits (R78). -/
theorem bitCount_xorfold_mod_two (E : Bytes) : bitCount (xorfold E) % 2 = (E.map bitCount).sum % 2 := by
  induction E with
  | nil => rfl
  | cons e E ih => rw [xorfold_cons, bitCount_xor_mod_two, List.map_cons, List.sum_cons, Nat.add_mod, ih, ← Nat.add_mod]

/-! ### The check -/

/-- Settles O1: the recursion of the fold, and R77's form of the check. -/
theorem crcIsTheRunningXor : Obligations.CrcIsTheRunningXor :=
  ⟨rfl, fun Q q => by simp [crc], xorfold_replicate_zero, fun _ _ => xorfold_perm, rfl, fun _ _ => ⟨rfl, rfl⟩,
    fun _ _ => crc_passes_iff⟩

/-- R78: a changed payload passes exactly when the fold of the change is zero. -/
theorem crc_passes_changed_iff {P E Q : Bytes} {L : Half} (hQ : Q = List.zipWith (fun p e => p ^^^ e) P E)
    (hP : P.length = L.toNat) (hE : E.length = L.toNat) (h1 : 1 ≤ L.toNat) (hpass : crcCalc P L = crcRx P L) :
    crcCalc Q L = crcRx Q L ↔ xorfold E = 0x00 := by
  have hlen : Q.length = L.toNat := by simp [hQ, hP, hE]
  have hfold : xorfold P = 0 := (crc_passes_iff hP h1).1 hpass
  have hchange : xorfold Q = xorfold E := by
    rw [hQ, xorfold_zipWith (hP.trans hE.symm), hfold]; exact BitVec.zero_xor
  rw [crc_passes_iff hlen h1, hchange]

/-- Settles O2: each clause says what the fold of the change is. -/
theorem crcDetectsExactlyTheNonzeroFolds : Obligations.CrcDetectsExactlyTheNonzeroFolds := by
  intro P E L hP hE h1 hpass Q
  have hiff : crcCalc Q L = crcRx Q L ↔ xorfold E = 0x00 := crc_passes_changed_iff rfl hP hE h1 hpass
  refine ⟨hiff, fun k hk hothers => ?_, fun hodd => ?_, fun i _ hbit heven => ?_⟩
  · rw [Ne, hiff, xorfold_eq_getD hothers]
    exact hk
  · rw [Ne, hiff]
    intro h0
    have hpar := bitCount_xorfold_mod_two E
    rw [h0, hodd] at hpar
    exact absurd hpar (by decide)
  · rw [hiff, xorfold_of_zero_or_eq hbit, if_pos heven]

end Machine

end Sys2Proof
end

section
/-! PROOF. The frame codec (spec/40_frame_codec.md R79 to R96). Of any buffer, `tryDecode` answers by the first check that fails
(R81), and each check has its lemma here. Of a frame written by `frameOf`, the lemmas of R63's two readings
(`rowReturns_classify`, `payloadOutcome_…`) give what the row returns and what its bytes decode to. -/

namespace Sys2Proof.Machine

/-! ### The checks of `TryDecode` (R81) -/

theorem anchored_iff_take (S : Bytes) : anchored S = true ↔ S.take 3 = [0x43, 0x4D, 0x3E] := beq_iff_eq

/-- A buffer that starts with the anchor and holds its declared frame, whose length field is `L`. -/
structure HoldsFrame (S : Bytes) (L : Half) : Prop where
  anchored : anchored S = true
  field    : lenField S = L
  header   : 5 ≤ S.length
  complete : 5 + L.toNat ≤ S.length

/-- Steps 4 to 7, for a buffer that holds its declared frame. -/
theorem HoldsFrame.tryDecode_eq {S : Bytes} {L : Half} (h : HoldsFrame S L) :
    tryDecode S =
      if L.toNat < ctrlLen then .invalid .tooShort L (frameSize L)
      else if crcCalc (payloadOf S L) L ≠ crcRx (payloadOf S L) L then .invalid .crcMismatch L (frameSize L)
      else .ok (frameFrom S (payloadOf S L) L) (frameSize L) := by
  obtain ⟨ha, rfl, h5, hT⟩ := h
  rw [tryDecode, ha, Bool.not_true, if_neg Bool.false_ne_true]
  exact (if_neg h5.not_gt).trans (if_neg hT.not_gt)

/-- Steps 2 and 3: an anchored buffer waits for its header and for its declared end (R83, R84). -/
theorem tryDecode_incomplete_iff {S : Bytes} (h : anchored S = true) :
    tryDecode S = .incomplete ↔ S.length < 5 ∨ S.length < 5 + (lenField S).toNat := by
  by_cases hw : S.length < 5 ∨ S.length < 5 + (lenField S).toNat
  · refine iff_of_true ?_ hw
    rw [tryDecode, h, Bool.not_true, if_neg Bool.false_ne_true]
    by_cases h5 : S.length < 5
    · exact if_pos h5
    · exact (if_neg h5).trans (if_pos (hw.resolve_left h5))
  · obtain ⟨h5, hT⟩ := not_or.1 hw
    refine iff_of_false ?_ hw
    rw [HoldsFrame.tryDecode_eq ⟨h, rfl, not_lt.1 h5, not_lt.1 hT⟩]
    split_ifs <;> simp

theorem HoldsFrame.tryDecode_tooShort {S : Bytes} {L : Half} (h : HoldsFrame S L) (h5 : L.toNat ≤ 5) :
    tryDecode S = .invalid .tooShort L (5 + L.toNat) :=
  h.tryDecode_eq.trans (if_pos (Nat.lt_succ_of_le h5))

theorem HoldsFrame.tryDecode_crcMismatch {S : Bytes} {L : Half} (h : HoldsFrame S L) (h6 : 6 ≤ L.toNat)
    (hc : crcCalc (payloadOf S L) L ≠ crcRx (payloadOf S L) L) :
    tryDecode S = .invalid .crcMismatch L (5 + L.toNat) :=
  h.tryDecode_eq.trans ((if_neg h6.not_gt).trans (if_pos hc))

theorem HoldsFrame.tryDecode_ok {S : Bytes} {L : Half} (h : HoldsFrame S L) (h6 : 6 ≤ L.toNat)
    (hc : crcCalc (payloadOf S L) L = crcRx (payloadOf S L) L) :
    tryDecode S = .ok (frameFrom S (payloadOf S L) L) (5 + L.toNat) :=
  h.tryDecode_eq.trans ((if_neg h6.not_gt).trans (if_neg (not_not.2 hc)))

/-! ### Good frames -/

/-- Settles O10: the kind of a control frame is that of its type byte. -/
theorem controlFramesDecodeByTheirTypeByte : Obligations.ControlFramesDecodeByTheirTypeByte := by
  intro S ha hL h11 P hcrc fr
  have hS : HoldsFrame S 6 := ⟨(anchored_iff_take S).2 ha, hL, by omega, h11⟩
  have hok : tryDecode S = fr (kindOfType (P.getD 2 0)) (P.getD 2 0) := hS.tryDecode_ok (by decide) hcrc
  refine ⟨fun ht => ?_, fun ht => ?_, fun ht => ?_, fun h1 h2 h4 => ?_⟩
  · rw [hok, ht]; rfl
  · rw [hok, ht]; rfl
  · rw [hok, ht]; rfl
  · rw [hok, kindOfType, if_neg h1, if_neg h2, if_neg h4]

/-- Settles O11: a length field above 6 selects DATA. -/
theorem dataFramesDecodeByTheirLength : Obligations.DataFramesDecodeByTheirLength := by
  intro S L ha hL h7 hlen P hcrc
  have hS : HoldsFrame S L := ⟨(anchored_iff_take S).2 ha, hL.symm, by omega, hlen⟩
  have hne : L ≠ 6 := fun h => absurd (h ▸ h7) (by decide)
  constructor
  · rw [hS.tryDecode_ok (by omega) hcrc, frameFrom, if_neg hne]
    rfl
  · simp only [P, slice, List.length_take, List.length_drop]
    omega

/-! ### Malformed buffers -/

/-- The covered bytes `P[0:L-1]`, by their place in the buffer. -/
theorem crcCalc_payloadOf (S : Bytes) {L : Half} (h1 : 1 ≤ L.toNat) :
    crcCalc (payloadOf S L) L = xorfold (slice S 5 (4 + L.toNat)) := by
  have hcalc : 5 + L.toNat - 5 = L.toNat := by omega
  have hcov : 4 + L.toNat - 5 = L.toNat - 1 := by omega
  simp [crcCalc, crc, payloadOf, slice, frameSize, hdrLen, hcalc, hcov, List.take_take]

/-- The received CRC `P[L-1]`, by its place in the buffer. -/
theorem crcRx_payloadOf (S : Bytes) {L : Half} (h1 : 1 ≤ L.toNat) :
    crcRx (payloadOf S L) L = S.getD (4 + L.toNat) 0 := by
  have hin : L.toNat - 1 < L.toNat := by omega
  have hpos : 5 + (L.toNat - 1) = 4 + L.toNat := by omega
  simp [crcRx, payloadOf, slice, frameSize, hdrLen, List.getD_eq_getElem?_getD, hin, hpos]

/-- Settles O12: one check of R81 for each condition. -/
theorem malformedBuffersDecodeByTheFirstCheckThatFails :
    Obligations.MalformedBuffersDecodeByTheFirstCheckThatFails := by
  intro S
  refine ⟨fun h => ?_, fun ha => ?_⟩
  · rw [tryDecode_misaligned_iff, ← Bool.not_eq_true]
    intro ha
    rcases h with h3 | hne
    · exact h3.not_ge (length_of_anchored ha)
    · exact hne ((anchored_iff_take S).1 ha)
  have ha' : anchored S = true := (anchored_iff_take S).2 ha
  refine ⟨fun h5 => (tryDecode_incomplete_iff ha').2 (.inl h5),
    fun _ hT => (tryDecode_incomplete_iff ha').2 (.inr hT),
    fun hL h5 hT => HoldsFrame.tryDecode_tooShort ⟨ha', rfl, h5, hT⟩ hL, fun h6 hT hcrc => ?_⟩
  have hS : HoldsFrame S (lenField S) := ⟨ha', rfl, by omega, hT⟩
  refine hS.tryDecode_crcMismatch h6 ?_
  rwa [crcCalc_payloadOf S (by omega), crcRx_payloadOf S (by omega)]

/-! ### The declared frame -/

/-- Settles O13: `tryDecode_take` for the declared frame, `tryDecode_append` for the bytes behind it. -/
theorem decodeDependsOnTheDeclaredFrameAlone : Obligations.DecodeDependsOnTheDeclaredFrameAlone := by
  intro S X ha
  have hspan : ∀ {T : Bytes}, anchored T = true → tryDecode T ≠ .incomplete →
      tryDecode T = tryDecode (slice T 0 (5 + (lenField T).toNat)) :=
    fun hT hi => by rw [slice_zero]; exact (tryDecode_take hT hi).symm
  refine ⟨fun h5 => ⟨fun hT => hspan ha ?_, fun hT => (tryDecode_incomplete_iff ha).2 (.inr hT)⟩,
    fun hi => tryDecode_append ha hi X, fun _ => ?_⟩
  · rw [Ne, tryDecode_incomplete_iff ha]; omega
  · exact (em _).imp_right (hspan (anchored_append ha X))

/-- The first five bytes alone carry the length field (R68). -/
theorem lenField_take (S : Bytes) {n : Nat} (h : 5 ≤ n) : lenField (S.take n) = lenField S := by
  have h3 : 3 < n := by omega
  have h4 : 4 < n := by omega
  simp [lenField, List.getD_eq_getElem?_getD, h3, h4]

/-- Settles O14: `tryDecode_consumes`, and the length field of the consumed bytes. -/
theorem decodeConsumesTheDeclaredFrame : Obligations.DecodeConsumesTheDeclaredFrame := by
  refine fun S => ⟨fun f n h => ?_, tryDecode_consumes.2⟩
  obtain ⟨hn, hle, hraw, h11⟩ := tryDecode_consumes.1 f n h
  have hsize : n = 5 + (lenField S).toNat := hn
  have ha : anchored S = true := by
    rw [← Bool.not_eq_false, ← tryDecode_misaligned_iff, h]; exact DecodeOut.noConfusion
  have hmagic : (S.take n).take 3 = [0x43, 0x4D, 0x3E] := by
    rw [List.take_take, min_eq_left (by omega)]; exact (anchored_iff_take S).1 ha
  have hlen : (S.take n).length = n := List.length_take_of_le hle
  rw [hraw, slice_zero, slice_zero, hlen, lenField_take S (by omega)]
  exact ⟨hsize, hle, rfl, hmagic, rfl, by omega⟩

/-! ### The receive rows -/

theorem frameOf_eq (P : Bytes) :
    frameOf P = [0x43, 0x4D, 0x3E, hiByte (BitVec.ofNat 16 P.length), loByte (BitVec.ofNat 16 P.length)] ++ P := rfl

/-- `tryDecode` on a frame alone. -/
theorem tryDecode_frameOf_nil {P : Bytes} (h : P.length ≤ maxLen) : tryDecode (frameOf P) = payloadOutcome P := by
  simpa only [List.append_nil] using tryDecode_frameOf [] h

/-- A row completes with what `TryDecode` gives for its bytes (log entry 4). -/
def ReturnsDecodeOf (i : Instr) (S : Bytes) (o : DecodeOut) (s : State) : Prop :=
  exec i s = .next (s.withResult (.decoded o)) ∧ tryDecode S = o

/-- The class of a payload completes with what `TryDecode` gives for the payload's frame. -/
theorem returnsDecodeOf_classify {P : Bytes} (h : P.length ≤ maxLen) (s : State) :
    ReturnsDecodeOf (classify P) (frameOf P) (payloadOutcome P) s :=
  ⟨(rowReturns_classify h).2 s, tryDecode_frameOf_nil h⟩

theorem frameOf_ctrlPayload (c : Half) (t : Byte) (st : Half) : frameOf (ctrlPayload c t st) = ctrlBytes c t st := by
  have hcrc : xorfold [hiByte c, loByte c, t, hiByte st, loByte st] =
      hiByte c ^^^ loByte c ^^^ t ^^^ hiByte st ^^^ loByte st := by simp [BitVec.xor_assoc]
  have hlen : (ctrlPayload c t st).length = 6 := rfl
  rw [ctrlBytes, ← hcrc, frameOf_eq, hlen]; rfl

theorem returnsDecodeOf_ctrlRow (c : Half) (t : Byte) (st : Half) (s : State) :
    ReturnsDecodeOf (ctrlRow c t st) (ctrlBytes c t st) (okCtrl c (kindOfType t) t st (ctrlBytes c t st)) s := by
  have h := returnsDecodeOf_classify (P := ctrlPayload c t st) (show 6 ≤ maxLen by decide) s
  rwa [classify_ctrlPayload, payloadOutcome_ctrlPayload, frameOf_ctrlPayload] at h

/-- Settles O6: the row of each type byte, by `returnsDecodeOf_ctrlRow`. -/
theorem controlRowsReturnTheirFrame : Obligations.ControlRowsReturnTheirFrame := by
  intro cmd status typ s ret
  refine ⟨returnsDecodeOf_ctrlRow cmd 0x01 status s, returnsDecodeOf_ctrlRow cmd 0x02 status s,
    returnsDecodeOf_ctrlRow cmd 0x04 status s, fun h1 h2 h4 => ?_⟩
  have h := returnsDecodeOf_ctrlRow cmd typ status s
  rwa [ctrlRow, if_neg h1, if_neg h2, if_neg h4, kindOfType, if_neg h1, if_neg h2, if_neg h4] at h

theorem length_dataPayload (c : Half) (body : Bytes) :
    (withCrc ([hiByte c, loByte c] ++ body)).length = body.length + 3 := by simp [withCrc]

/-- The bytes of R59 and R60, written out. -/
theorem frameOf_dataPayload (c : Half) (body : Bytes) :
    frameOf (withCrc ([hiByte c, loByte c] ++ body)) =
      [0x43, 0x4D, 0x3E, hiByte (BitVec.ofNat 16 (body.length + 3)), loByte (BitVec.ofNat 16 (body.length + 3))] ++
        ([hiByte c, loByte c] ++ body) ++ [xorfold ([hiByte c, loByte c] ++ body)] := by
  rw [frameOf_eq, length_dataPayload, withCrc, List.append_assoc _ ([hiByte c, loByte c] ++ body)]

/-- Settles O7: DATA is the class of its payload. -/
theorem dataRowReturnsItsFrame : Obligations.DataRowReturnsItsFrame := by
  intro cmd body s h4 hle L P raw out
  have hraw : frameOf (withCrc ([hiByte cmd, loByte cmd] ++ body)) = raw := frameOf_dataPayload cmd body
  have hout : payloadOutcome (withCrc ([hiByte cmd, loByte cmd] ++ body)) = out := by
    rw [payloadOutcome_data cmd h4 hle, encode, hraw, show hdrLen + (body.length + 3) = body.length + 8 by
      simp only [hdrLen]; omega]
  have h := returnsDecodeOf_classify (P := withCrc ([hiByte cmd, loByte cmd] ++ body))
    (by rw [length_dataPayload, maxLen]; omega) s
  rwa [classify_data cmd body h4, hout, hraw] at h

/-- R83 and R84 of what follows the anchor. -/
theorem stillIncomplete_of_length {rest : Bytes}
    (h : rest.length < 2 ∨ rest.length < 2 + (be16 (rest.getD 0 0) (rest.getD 1 0)).toNat) :
    stillIncomplete rest = true := by
  match rest with
  | [] | [_] => rfl
  | a :: b :: body =>
    simp only [List.length_cons, List.getD_cons_zero, List.getD_cons_succ] at h
    exact decide_eq_true (by omega)

/-- Settles O8: a malformed payload is of the class its length or its fold selects; an unfinished rest is incomplete to both
readers. -/
theorem malformedRowsReturnTheirOutcome : Obligations.MalformedRowsReturnTheirOutcome := by
  intro p rest s L raw
  refine ⟨fun h6 hmax hx => ?_, fun h5 => ?_, fun hrest => ?_⟩
  · have hL : L.toNat = p.length := lenOf_toNat hmax
    have h := returnsDecodeOf_classify hmax s
    rwa [classify, if_neg (by omega), if_pos hx, payloadOutcome, spanOutcome_crcMismatch (h6.trans_eq hL.symm) hx,
      frameSize_lenOf hmax] at h
  · have hmax : p.length ≤ 65535 := by omega
    have hL : L.toNat = p.length := lenOf_toNat hmax
    have h := returnsDecodeOf_classify hmax s
    rwa [classify, if_pos h5, payloadOutcome, spanOutcome_tooShort (hL.trans_le h5), frameSize_lenOf hmax] at h
  · have hinc := stillIncomplete_of_length hrest
    exact ⟨retDecodedIf_of_wf hinc _ s, (decode_and_tryDecode_incomplete hinc).2⟩

/-! ### `BuildFrame` -/

/-- `BuildFrame` writes the frame of R60 around command code, parameters and CRC (R79). -/
theorem buildFrame_eq (c : Half) {p : Bytes} (h : p.length ≤ 65532) :
    buildFrame c p = some (frameOf (withCrc ([hiByte c, loByte c] ++ p))) := by
  rw [buildFrame, if_neg h.not_gt, frameOf_dataPayload, Nat.add_comm 3]
  rfl

/-- Settles O3: the length of the payload, and `lenOf_toNat` for the field that carries it. -/
theorem builtFrameSpellsItsLength : Obligations.BuiltFrameSpellsItsLength := by
  intro c p hp
  have hfield : (lenField (frameOf (withCrc ([hiByte c, loByte c] ++ p)))).toNat = 3 + p.length := by
    rw [frameOf_eq, length_dataPayload, Nat.add_comm 3]
    exact (congrArg BitVec.toNat (be16_hi_lo _)).trans (lenOf_toNat (by omega))
  have hlen : (frameOf (withCrc ([hiByte c, loByte c] ++ p))).length = 8 + p.length := by
    rw [frameOf_eq, List.length_append, length_dataPayload]; simp only [List.length_cons, List.length_nil]; omega
  exact ⟨_, buildFrame_eq c hp, hlen, by omega, hfield⟩

/-- Settles O5: REQ returns what `BuildFrame` returns, in both cases of its length test. -/
theorem requestRowBuildsItsFrame : Obligations.RequestRowBuildsItsFrame := by
  intro cmd p s
  have hexec : exec (.req cmd p) s = .next (s.withResult (.built (buildFrame cmd p))) := rfl
  refine ⟨fun hp => ?_, fun hp => ?_⟩
  · rw [hexec, buildFrame_eq cmd hp, frameOf_dataPayload, Nat.add_comm 3]
    rfl
  · rw [hexec, buildFrame, if_pos hp]

/-- Settles O4: up to two parameter bytes the payload is too short, three make it a control payload, more a DATA payload. -/
theorem builtFrameDecodesByItsLength : Obligations.BuiltFrameDecodesByItsLength := by
  intro c p F hp hF
  obtain rfl : frameOf (withCrc ([hiByte c, loByte c] ++ p)) = F := Option.some.inj ((buildFrame_eq c hp).symm.trans hF)
  have hmax : p.length + 3 ≤ 65535 := by omega
  have hdec : tryDecode (frameOf (withCrc ([hiByte c, loByte c] ++ p))) = payloadOutcome (withCrc ([hiByte c, loByte c] ++ p)) :=
    tryDecode_frameOf_nil ((length_dataPayload c p).trans_le hmax)
  refine ⟨fun h2 => ?_, ?_, fun h4 => ?_⟩
  · have hL : (BitVec.ofNat 16 (p.length + 3)).toNat ≤ 5 := by rw [lenOf_toNat hmax]; omega
    rw [hdec, payloadOutcome, length_dataPayload, spanOutcome_tooShort hL, frameSize_lenOf hmax, Nat.add_comm 5]
  · rintro t s1 s0 rfl
    have hctrl : withCrc ([hiByte c, loByte c] ++ [t, s1, s0]) = ctrlPayload c t (be16 s1 s0) := by simp [ctrlPayload]
    rw [hdec, hctrl, payloadOutcome_ctrlPayload]
    rfl
  · rw [hdec, payloadOutcome_data c h4 hp, Nat.add_comm hdrLen]
    rfl

end Sys2Proof.Machine
end

section
/-! PROOF. The searches and the trim (spec/41_stream_demux.md R97 to R99): the least offsets, and the bounds of a trimmed run. -/

namespace Sys2Proof

/-! ### The searches -/

/-- An anchor at `k`, as R97 writes it. -/
theorem anchored_drop_iff (B : Bytes) (k : Nat) :
    anchored (B.drop k) = true ↔ slice B k (k + 3) = [0x43, 0x4D, 0x3E] := by
  rw [Machine.anchored_iff_take, slice, Nat.add_sub_cancel_left]

/-- An anchor needs its three bytes. -/
theorem le_length_of_anchored_drop {B : Bytes} {k : Nat} (h : anchored (B.drop k) = true) : k + 3 ≤ B.length := by
  have h3 := length_of_anchored h
  rw [List.length_drop] at h3
  omega

theorem not_anchored_drop_iff (B : Bytes) (k : Nat) :
    anchored (B.drop k) = false ↔ slice B k (k + 3) ≠ [0x43, 0x4D, 0x3E] := by
  rw [← Bool.not_eq_true, anchored_drop_iff]

/-- Settles O22: `findAnchor_eq_some` and `findAnchor_eq_none` in R97's spelling. -/
theorem findAnchorIsTheLeastOffset : Obligations.FindAnchorIsTheLeastOffset := by
  refine fun B => ⟨fun k => ?_, ?_⟩
  · simp only [findAnchor_eq_some, not_anchored_drop_iff]
    constructor
    · rintro ⟨hk, hleast⟩
      exact ⟨le_length_of_anchored_drop hk, (anchored_drop_iff B k).1 hk, hleast⟩
    · rintro ⟨-, hk, hleast⟩
      exact ⟨(anchored_drop_iff B k).2 hk, hleast⟩
  · rw [findAnchor_eq_none]
    refine ⟨fun h k _ => (not_anchored_drop_iff B k).1 (h k), fun h k => ?_⟩
    by_contra hk
    have ha : anchored (B.drop k) = true := by simpa using hk
    exact h k (le_length_of_anchored_drop ha) ((anchored_drop_iff B k).1 ha)

/-- Settles O23: `findLF_eq_some` and `findLF_eq_none`, with membership read as an index. -/
theorem findLfIsTheLeastIndex : Obligations.FindLfIsTheLeastIndex := by
  refine fun B => ⟨fun j => ?_, ?_⟩
  · rw [findLF_eq_some, List.mem_iff_getElem?]
    simp [lf, List.getElem?_take]
  · rw [findLF_eq_none, List.mem_iff_getElem?]
    simp [lf]

/-! ### The trim -/

/-- Trim removes from the left, then from the right. -/
theorem trim_eq_rdropWhile (S : Bytes) : trim S = (S.dropWhile isWs).rdropWhile isWs := rfl

theorem trim_eq_nil_of_isWs {S : Bytes} (h : ∀ b ∈ S, isWs b = true) : trim S = [] := by
  rw [trim_eq_rdropWhile, List.dropWhile_eq_nil_iff.2 h, List.rdropWhile_nil]

/-- White bytes around a run that starts and ends with text bytes are what Trim removes (R99). -/
theorem trim_of_bounds {a m z : Bytes} (hne : m ≠ []) (ha : ∀ b ∈ a, isWs b = true) (hz : ∀ b ∈ z, isWs b = true)
    (hhead : ¬ isWs (m.head hne) = true) (hlast : ¬ isWs (m.getLast hne) = true) : trim (a ++ m ++ z) = m := by
  have hleft : (a ++ m ++ z).dropWhile isWs = m ++ z := by
    rw [List.append_assoc, List.dropWhile_append_of_pos ha, ← List.cons_head_tail hne, List.cons_append,
      List.dropWhile_cons_of_neg hhead]
  have hright : (m ++ z).rdropWhile isWs = m.rdropWhile isWs := by
    rw [List.rdropWhile, List.reverse_append, List.dropWhile_append_of_pos (by simpa using hz), List.rdropWhile]
  rw [trim_eq_rdropWhile, hleft, hright, List.rdropWhile_eq_self_iff]
  exact fun _ => hlast

/-- A trimmed run has nothing left to trim (R71). -/
theorem trim_trim (S : Bytes) : trim (trim S) = trim S := by
  have hleft : (trim S).dropWhile isWs = trim S := by
    rw [List.dropWhile_eq_self_iff]
    intro hpos
    have hpre : trim S <+: S.dropWhile isWs := List.rdropWhile_prefix isWs _
    rw [hpre.getElem hpos]
    exact List.dropWhile_get_zero_not isWs S (hpos.trans_le hpre.length_le)
  rw [trim_eq_rdropWhile (trim S), hleft]
  exact List.rdropWhile_idempotent isWs _

theorem trim_infix (S : Bytes) : trim S <:+: S := by
  obtain ⟨a, z, hS, -, -⟩ := trim_split S
  exact ⟨a, z, hS.symm⟩

theorem isWs_iff (b : Byte) : isWs b = true ↔ b ∈ ([0x09, 0x0A, 0x0B, 0x0C, 0x0D, 0x20] : Bytes) :=
  List.contains_iff_mem

/-- Settles O24: the two bounds cut `S` in three, and `trim_of_bounds` says what Trim keeps. -/
theorem trimCutsToTheOutermostTextBytes : Obligations.TrimCutsToTheOutermostTextBytes := by
  intro S isWhite
  refine ⟨fun h => trim_eq_nil_of_isWs fun b hb => (isWs_iff b).2 (h b hb), fun a z haz hz hfirst hlast hleft hright => ?_⟩
  have hlen : (slice S a z).length = z - a := by rw [slice, List.length_take, List.length_drop]; omega
  have hne : slice S a z ≠ [] := List.ne_nil_of_length_pos (by omega)
  have hcut : S = S.take a ++ slice S a z ++ S.drop z := by
    have hz' : S.drop z = (S.drop a).drop (z - a) := by rw [List.drop_drop, Nat.add_sub_cancel' haz.le]
    rw [hz', List.append_assoc, slice, List.take_append_drop, List.take_append_drop]
  have hget : ∀ (i : Nat) (hi : i < S.length), S[i] = S.getD i 0 := fun i hi => by simp [hi]
  conv_lhs => rw [hcut]
  refine trim_of_bounds hne (fun b hb => ?_) (fun b hb => ?_) ?_ ?_
  · obtain ⟨i, hi, rfl⟩ := List.mem_take_iff_getElem.1 hb
    rw [isWs_iff, hget]
    exact hleft i (by omega)
  · obtain ⟨i, hi, rfl⟩ := List.mem_drop_iff_getElem.1 hb
    rw [isWs_iff, hget]
    exact hright _ (by omega) (by omega)
  · have hh : (slice S a z).head hne = S.getD a 0 := by
      simp [slice, List.head_eq_getElem, show a < S.length by omega]
    rwa [isWs_iff, hh]
  · have hl : (slice S a z).getLast hne = S.getD (z - 1) 0 := by
      have hi : a + (z - a - 1) = z - 1 := by omega
      simp only [List.getLast_eq_getElem, hlen]
      simp [slice, hi, show z - 1 < S.length by omega]
    rwa [isWs_iff, hl]

/-! ### Parts of a buffer -/

theorem findAnchor_eq_none_of_infix {S T : Bytes} (hT : T <:+: S) (h : findAnchor S = none) : findAnchor T = none := by
  obtain ⟨a, z, rfl⟩ := hT
  rw [findAnchor_eq_none] at h ⊢
  intro k
  by_contra hk
  have ha : anchored (T.drop k) = true := by simpa using hk
  have hle := le_length_of_anchored_drop ha
  have hS : (a ++ T ++ z).drop (a.length + k) = T.drop k ++ z := by
    rw [List.append_assoc, List.drop_length_add_append, List.drop_append_of_le_length (by omega)]
  have hno := h (a.length + k)
  rw [hS, anchored_append ha] at hno
  cases hno

theorem findLF_eq_none_of_infix {S T : Bytes} (hT : T <:+: S) (h : findLF S = none) : findLF T = none := by
  rw [findLF_eq_none] at h ⊢
  exact fun hm => h (hT.subset hm)

end Sys2Proof
end

section
/-! PROOF. The drain iteration (spec/41_stream_demux.md R101 to R113): each row where it is selected, the frame of the eight rows,
the shapes in which an iteration is QUIET, and the bound of the loop. -/

namespace Sys2Proof.Machine

/-! ### A drain row is the drain iteration -/

/-- The row of the selected branch is `DrainStep` (R101). -/
theorem exec_selected {s : State} {br : Branch} (h : selectBranch s.cfg s.blk.B = br) :
    exec br.toInstr s =
      .next ((s.withBlk (drainStep s.cfg s.blk).1).withResult (.drained (drainStep s.cfg s.blk).2)) := by
  rw [exec_branchRow, runBranch, if_pos h, drainStep, h]

/-- Settles O31: the two sides of the row's test. -/
theorem drainRowRunsWhereItIsSelected : Obligations.DrainRowRunsWhereItIsSelected := by
  refine fun s br => ⟨exec_selected, fun h => ?_⟩
  rw [exec_branchRow, runBranch, if_neg h]

section
variable {s : State} {br : Branch}

/-- A selected iteration that leaves the block alone writes its result only (R102, R104, R109, R110). -/
theorem exec_selected_same {r : DrainRes} (h : selectBranch s.cfg s.blk.B = br)
    (hd : drainStep s.cfg s.blk = (s.blk, r)) : exec br.toInstr s = .next (s.withResult (.drained r)) := by
  rw [exec_selected h, hd]; rfl

/-- A selected iteration that ends in `commit` with room for its message, or none to send (R103, R105 to R107). -/
theorem exec_selected_commit {m : Option Msg} {n : Nat} (h : selectBranch s.cfg s.blk.B = br)
    (hd : drainStep s.cfg s.blk = s.blk.commit s.cfg m n) (hroom : m = none ∨ s.blk.OQ.length < s.cfg.outDepth) :
    exec br.toInstr s = .next (movedState s m.toList n s.blk.ovf) := by
  rw [exec_selected h, hd, commit_fits hroom]; rfl

/-- A selected iteration that ends in `commit` with a message and no room for it (R110). -/
theorem exec_selected_full {msg : Msg} {n : Nat} (h : selectBranch s.cfg s.blk.B = br)
    (hd : drainStep s.cfg s.blk = s.blk.commit s.cfg (some msg) n) (hfull : s.cfg.outDepth ≤ s.blk.OQ.length) :
    exec br.toInstr s = .next (s.withResult (.drained .blocked)) :=
  exec_selected_same h (hd.trans (commit_full hfull n))

end

/-- `EmitText` as the statements write it (R100). -/
theorem toList_textMsg (S : Bytes) : (textMsg S).toList = textOut S := textMsg_toList S

theorem textMsg_of_trim_ne_nil {S : Bytes} (h : trim S ≠ []) : textMsg S = some (.text (trim S)) := if_neg h

/-- The condition "nothing to emit, or room" in the two spellings. -/
theorem textMsg_fits {S : Bytes} {q d : Nat} (h : textOut S = [] ∨ q < d) : textMsg S = none ∨ q < d := by
  rwa [← toList_textMsg, Option.toList_eq_nil_iff] at h

section
variable {cfg : Config} {B : Bytes}

theorem selectBranch_frameWait (h : anchored B = true) (hd : tryDecode B = .incomplete) :
    selectBranch cfg B = .frameWait := by rw [selectBranch_anchored h, hd]

theorem selectBranch_frameOk {f : Frame} {n : Nat} (h : anchored B = true) (hd : tryDecode B = .ok f n) :
    selectBranch cfg B = .frameOk := by rw [selectBranch_anchored h, hd]

theorem selectBranch_frameInv {r : Reason} {L : Half} {n : Nat} (h : anchored B = true)
    (hd : tryDecode B = .invalid r L n) : selectBranch cfg B = .frameInv := by rw [selectBranch_anchored h, hd]

theorem selectBranch_wait (h0 : B ≠ []) (ha : findAnchor B = none) (hf : findLF B = none)
    (hc : belowCap cfg B.length = true) : selectBranch cfg B = .wait := by
  rw [selectBranch_text h0 ha hf, if_pos hc]

theorem selectBranch_ovf (h0 : B ≠ []) (ha : findAnchor B = none) (hf : findLF B = none)
    (hc : belowCap cfg B.length = false) : selectBranch cfg B = .overflow := by
  rw [selectBranch_text h0 ha hf, hc]; rfl

end

/-- Settles O25: the three waiting branches. -/
theorem waitingBranchesAreQuiet : Obligations.WaitingBranchesAreQuiet := by
  refine fun s => ⟨fun h => ?_, fun h hd => ?_, fun h0 ha hf hc => ?_⟩
  · exact exec_selected_same (br := .empty) (by rw [h, selectBranch_nil]) (drainStep_nil h)
  · have ha := (findAnchor_eq_zero _).1 h
    exact exec_selected_same (br := .frameWait) (selectBranch_frameWait ha hd) (drainStep_frameWait ha hd)
  · have hc' := (s.belowCap_cfg_iff _).2 hc
    exact exec_selected_same (br := .wait) (selectBranch_wait h0 ha hf hc') (drainStep_wait h0 ha hf hc')

/-- Settles O26: the text before the anchor leaves, and `findAnchor` says what then stands first. -/
theorem textBeforeTheAnchorLeaves : Obligations.TextBeforeTheAnchorLeaves := by
  intro s k h hk hroom
  rw [slice_zero] at hroom ⊢
  refine ⟨?_, ((findAnchor_eq_some _ _).1 h).1⟩
  rw [← toList_textMsg]
  exact exec_selected_commit (br := .textRun) (selectBranch_prefix h hk) (drainStep_prefix h hk) (textMsg_fits hroom)

/-- Settles O27: one commit for each outcome of the decode. -/
theorem completeFrameLeavesAsItsMessage : Obligations.CompleteFrameLeavesAsItsMessage := by
  intro s h hroom
  have ha := (findAnchor_eq_zero _).1 h
  refine ⟨fun f n hd => ?_, fun r L n hd => ?_⟩
  · exact exec_selected_commit (br := .frameOk) (selectBranch_frameOk ha hd) (drainStep_frameOk ha hd) (.inr hroom)
  · rw [slice_zero]
    exact exec_selected_commit (br := .frameInv) (selectBranch_frameInv ha hd) (drainStep_frameInv ha hd) (.inr hroom)

/-- Settles O28: the line leaves with its terminator. -/
theorem terminatedLineLeaves : Obligations.TerminatedLineLeaves := by
  intro s j ha hj hroom
  rw [slice_zero] at hroom ⊢
  rw [← toList_textMsg]
  exact exec_selected_commit (br := .line) (selectBranch_line ha hj) (drainStep_line ha hj) (textMsg_fits hroom)

/-- Settles O29: the flush, and the two bytes it leaves of a buffer that is not shorter than a legal capacity. -/
theorem fullBufferIsFlushed : Obligations.FullBufferIsFlushed := by
  intro s hl ha hf hcap hroom
  have hc := (s.belowCap_cfg_eq_false_iff _).2 hcap
  have hlen := length_of_belowCap_false hl hc
  have h0 : s.blk.B ≠ [] := List.ne_nil_of_length_pos (by omega)
  rw [slice_zero] at hroom ⊢
  refine ⟨?_, by rw [List.length_drop]; omega⟩
  have hstep := (drainStep_ovf h0 ha hf hc).trans (branchOvf_fits (textMsg_fits hroom))
  rw [← toList_textMsg]
  show exec Branch.overflow.toInstr s = _
  rw [exec_selected (selectBranch_ovf h0 ha hf hc), hstep]; rfl

/-- Settles O30: each emitting branch ends in a commit that finds no room. -/
theorem fullQueueHoldsTheIteration : Obligations.FullQueueHoldsTheIteration := by
  intro s hfull held
  refine ⟨fun k h hk ht => ?_, fun f n h hd => ?_, fun r L n h hd => ?_, fun j ha hj ht => ?_, fun ha hf hcap ht => ?_⟩
  · rw [slice_zero] at ht
    have hd := drainStep_prefix (cfg := s.cfg) h hk
    rw [textMsg_of_trim_ne_nil ht] at hd
    exact exec_selected_full (br := .textRun) (selectBranch_prefix h hk) hd hfull
  · have ha := (findAnchor_eq_zero _).1 h
    exact exec_selected_full (br := .frameOk) (selectBranch_frameOk ha hd) (drainStep_frameOk ha hd) hfull
  · have ha := (findAnchor_eq_zero _).1 h
    exact exec_selected_full (br := .frameInv) (selectBranch_frameInv ha hd) (drainStep_frameInv ha hd) hfull
  · rw [slice_zero] at ht
    have hd := drainStep_line (cfg := s.cfg) ha hj
    rw [textMsg_of_trim_ne_nil ht] at hd
    exact exec_selected_full (br := .line) (selectBranch_line ha hj) hd hfull
  · rw [slice_zero] at ht
    have h0 : s.blk.B ≠ [] := by
      intro h; rw [h] at ht; exact ht rfl
    have hc := (s.belowCap_cfg_eq_false_iff _).2 hcap
    exact exec_selected_same (br := .overflow) (selectBranch_ovf h0 ha hf hc)
      ((drainStep_ovf h0 ha hf hc).trans (branchOvf_full (textMsg_of_trim_ne_nil ht) hfull))

/-! ### The frame of the rows -/

/-- The branches that wait leave the block alone (R102, R104, R109). -/
theorem drainStep_of_waiting {cfg : Config} {blk : Block}
    (h : selectBranch cfg blk.B = .empty ∨ selectBranch cfg blk.B = .frameWait ∨ selectBranch cfg blk.B = .wait) :
    drainStep cfg blk = (blk, .quiet) := by
  rcases h with h | h | h <;> rw [drainStep, h] <;> rfl

/-- An iteration drops bytes at the front of B and puts at most one message at the end of OQ (R101). -/
theorem drainStep_drops_and_emits (cfg : Config) (blk : Block) :
    ∃ (n : Nat) (m : Option Msg),
      (drainStep cfg blk).1.B = blk.B.drop n ∧ (drainStep cfg blk).1.OQ = blk.OQ ++ m.toList := by
  rcases drainStep_cases cfg blk with hd | hd | ⟨n, m, o, hd, -⟩
  · exact ⟨0, none, by simp [hd]⟩
  · exact ⟨0, none, by simp [hd]⟩
  · exact ⟨n, m, by simp [hd]⟩

/-- A queue that grew by at most one message. -/
theorem append_toList_eq_or (Q : List Msg) (m : Option Msg) : Q ++ m.toList = Q ∨ ∃ x, Q ++ m.toList = Q ++ [x] := by
  cases m with
  | none => exact .inl (List.append_nil Q)
  | some x => exact .inr ⟨x, rfl⟩

/-- Settles O46: what one iteration drops and emits, and the waiting branches. -/
theorem drainRowsFrame : Obligations.DrainRowsFrame := by
  intro br s t h
  obtain ⟨rfl, rfl⟩ := exec_branchRow_next h
  obtain ⟨n, m, hB, hQ⟩ := drainStep_drops_and_emits s.cfg s.blk
  refine ⟨⟨n, hB⟩, drainStep_eng _ _, fun hbr => ?_, ?_, fun hbr => ?_, rfl, rfl, rfl, rfl⟩
  · exact (drainStep_ovf_eq_or _ _).resolve_right fun ho => hbr ho.2
  · simpa only [State.withResult_blk, State.withBlk_blk, hQ] using append_toList_eq_or s.blk.OQ m
  · simp [drainStep_of_waiting hbr]

/-! ### QUIET -/

/-- The three shapes wait (R113). -/
theorem drainStep_of_quiescent {cfg : Config} {blk : Block} (h : Quiescent cfg blk.B) :
    drainStep cfg blk = (blk, .quiet) := by
  rcases h with h | ⟨ha, hf, h1, hc⟩ | ⟨ha, hd⟩
  · exact drainStep_nil h
  · exact drainStep_wait (List.ne_nil_of_length_pos h1) ha hf hc
  · exact drainStep_frameWait ha hd

theorem commit_ne_quiet (cfg : Config) (m : Option Msg) (n : Nat) (blk : Block) : (blk.commit cfg m n).2 ≠ .quiet := by
  rcases commit_cases cfg m n blk with ⟨-, h⟩ | h <;> simp [h]

theorem branchOvf_ne_quiet (cfg : Config) (blk : Block) : (branchOvf cfg blk).2 ≠ .quiet := by
  rcases branchOvf_cases cfg blk with ⟨-, h⟩ | h <;> simp [h]

/-- Settles O33: a branch that does not wait ends in `commit` or the flush, which never answer QUIET. -/
theorem quietExactlyInTheThreeShapes : Obligations.QuietExactlyInTheThreeShapes := by
  refine fun cfg blk _ => ⟨fun h => ?_, fun h => by rw [drainStep_of_quiescent h]⟩
  rcases buffer_cases cfg blk.B with h0 | ⟨k, hk, ha⟩ | ⟨ha, hd⟩ | ⟨ha, f, n, hd⟩ | ⟨ha, r, L, n, hd⟩ | ⟨ha, j, hj⟩ |
    ⟨h0, ha, hf, hc⟩ | ⟨h0, ha, hf, hc⟩
  · exact .inl h0
  · rw [drainStep_prefix ha hk] at h; exact absurd h (commit_ne_quiet _ _ _ _)
  · exact .inr (.inr ⟨ha, hd⟩)
  · rw [drainStep_frameOk ha hd] at h; exact absurd h (commit_ne_quiet _ _ _ _)
  · rw [drainStep_frameInv ha hd] at h; exact absurd h (commit_ne_quiet _ _ _ _)
  · rw [drainStep_line ha hj] at h; exact absurd h (commit_ne_quiet _ _ _ _)
  · exact .inr (.inl ⟨ha, hf, List.length_pos_iff.2 h0, hc⟩)
  · rw [drainStep_ovf h0 ha hf hc] at h; exact absurd h (branchOvf_ne_quiet _ _)

/-! ### The loop ends -/

/-- R112: the dropped bytes, and their least number in the branches of which the rule gives one. -/
theorem drainStep_moved_drops {cfg : Config} {blk blk' : Block} (hl : cfg.Legal)
    (h : drainStep cfg blk = (blk', .moved)) :
    ∃ n, blk'.B = blk.B.drop n ∧ n ≤ blk.B.length ∧ 1 ≤ n ∧
      (selectBranch cfg blk.B = .frameOk ∨ selectBranch cfg blk.B = .frameInv → 5 ≤ n) ∧
      (selectBranch cfg blk.B = .overflow → n = blk.B.length - 2 ∧ 65538 ≤ n) := by
  rcases drainStep_moved h with ⟨k, hk, ha, rfl⟩ | ⟨f, n, ha, hd, rfl⟩ | ⟨r, L, n, ha, hd, rfl⟩ | ⟨j, ha, hj, rfl⟩ |
    ⟨h0, ha, hf, hc, rfl⟩
  · have hle := le_length_of_anchored_drop ((findAnchor_eq_some _ _).1 ha).1
    exact ⟨k, rfl, by omega, hk, by simp [selectBranch_prefix ha hk], by simp [selectBranch_prefix ha hk]⟩
  · obtain ⟨-, hle, -, h11⟩ := tryDecode_consumes.1 f n hd
    exact ⟨n, rfl, hle, by omega, fun _ => by omega, by simp [selectBranch_frameOk ha hd]⟩
  · obtain ⟨-, hn, hle⟩ := tryDecode_consumes.2 r L n hd
    have h5 : 5 ≤ n := hn ▸ Nat.le_add_right 5 _
    exact ⟨n, rfl, hle, by omega, fun _ => h5, by simp [selectBranch_frameInv ha hd]⟩
  · obtain ⟨hlt, -⟩ := List.getElem?_eq_some_iff.1 ((findLF_eq_some _ _).1 hj).1
    exact ⟨j + 1, rfl, hlt, by omega, by simp [selectBranch_line ha hj], by simp [selectBranch_line ha hj]⟩
  · have hlen := length_of_belowCap_false hl hc
    exact ⟨_, rfl, Nat.sub_le _ _, by omega, by simp [selectBranch_ovf h0 ha hf hc], fun _ => ⟨rfl, by omega⟩⟩

/-- An iteration that does not move ends the loop where it is. -/
theorem drainLoop_of_not_moved {cfg : Config} {blk : Block} (h : (drainStep cfg blk).2 ≠ .moved) (fuel : Nat) :
    drainLoop cfg fuel blk = blk := by
  rcases drainStep_cases cfg blk with hd | hd | ⟨n, m, o, hd, -⟩
  · exact drainLoop_stop hd (by simp) fuel
  · exact drainLoop_stop hd (by simp) fuel
  · rw [hd] at h; exact absurd rfl h

/-- As many iterations as B has bytes reach one that does not move, and more change nothing (R112). -/
theorem drainLoop_settles {cfg : Config} (hl : cfg.Legal) (fuel : Nat) (blk : Block) (hf : blk.B.length ≤ fuel) :
    (drainStep cfg (drainLoop cfg fuel blk)).2 ≠ .moved ∧ drainLoop cfg (fuel + 1) blk = drainLoop cfg fuel blk := by
  induction fuel generalizing blk with
  | zero =>
    have hq : drainStep cfg blk = (blk, .quiet) := drainStep_nil (List.eq_nil_of_length_eq_zero (Nat.le_zero.1 hf))
    have hn : (drainStep cfg blk).2 ≠ .moved := by simp [hq]
    exact ⟨hn, drainLoop_of_not_moved hn 1⟩
  | succ fuel ih =>
    by_cases hm : (drainStep cfg blk).2 = .moved
    · have hstep : drainStep cfg blk = ((drainStep cfg blk).1, .moved) := by rw [← hm]
      obtain ⟨n, hB, hle, hpos, -, -⟩ := drainStep_moved_drops hl hstep
      rw [drainLoop_moved hstep, drainLoop_moved hstep]
      exact ih _ (by rw [hB, List.length_drop]; omega)
    · rw [drainLoop_of_not_moved hm, drainLoop_of_not_moved hm]
      exact ⟨hm, rfl⟩

/-- Settles O32: the branches of a moving iteration, and the loop by its fuel. -/
theorem movedIterationDropsAndTheLoopEnds : Obligations.MovedIterationDropsAndTheLoopEnds := by
  intro cfg blk hl
  obtain ⟨hsettled, hmore⟩ := drainLoop_settles hl _ blk le_rfl
  refine ⟨fun blk' => drainStep_moved_drops hl, hmore, ?_⟩
  rwa [drainToQuiescence, hmore]

end Sys2Proof.Machine
end

section
/-! PROOF. One accepted byte (spec/41_stream_demux.md R113, R114). `absorb` is what a quiescent buffer makes of the next byte, as a
function of the bytes and the capacity alone; `Absorbs` names its cases, and `Absorbs.drain` ties it to the drain. -/

namespace Sys2Proof.Machine

/-! ### The message of a complete decode -/

theorem messageOf_eq_some {S : Bytes} {m : Msg} :
    messageOf S = some m ↔
      (∃ f n, tryDecode S = .ok f n ∧ m = .binary f) ∨ ∃ r L n, tryDecode S = .invalid r L n ∧ m = .error r L (S.take n) := by
  unfold messageOf
  cases tryDecode S <;> simp [eq_comm]

/-- An anchored buffer has no message exactly while its frame is incomplete. -/
theorem messageOf_eq_none {S : Bytes} (ha : anchored S = true) : messageOf S = none ↔ tryDecode S = .incomplete := by
  have hmis : tryDecode S ≠ .misaligned := by rw [Ne, tryDecode_misaligned_iff, ha]; simp
  unfold messageOf
  cases hd : tryDecode S with
  | misaligned => exact absurd hd hmis
  | incomplete | ok | invalid => simp

theorem anchored_of_tryDecode {S : Bytes} (h : tryDecode S ≠ .misaligned) : anchored S = true := by
  rwa [Ne, tryDecode_misaligned_iff, Bool.not_eq_false] at h

/-- The declared span decodes to what the buffer does (R93). -/
theorem tryDecode_span {S : Bytes} {o : DecodeOut} (h : tryDecode S = o) (hm : o ≠ .misaligned) (hi : o ≠ .incomplete) :
    tryDecode (S.take (frameSize (lenField S))) = o := by
  subst h
  exact tryDecode_take (anchored_of_tryDecode hm) hi

/-- A Binary or Error message is what its own bytes decode to (R72, R73, R95). -/
theorem messageOf_good {S : Bytes} {m : Msg} (h : messageOf S = some m) (cfg : Config) : Msg.Good cfg m := by
  rcases messageOf_eq_some.1 h with ⟨f, n, hd, rfl⟩ | ⟨r, L, n, hd, rfl⟩
  · obtain ⟨rfl, hle, hraw, -⟩ := tryDecode_consumes.1 f n hd
    rw [Msg.Good, hraw, List.length_take_of_le hle]
    exact tryDecode_span hd (by simp) (by simp)
  · obtain ⟨rfl, rfl, hle⟩ := tryDecode_consumes.2 r L n hd
    rw [Msg.Good, List.length_take_of_le hle]
    exact tryDecode_span hd (by simp) (by simp)

/-! ### Quiescent buffers -/

/-- Q0 or Q1 (R113): text, possibly none, that the buffer still holds. -/
structure TextHeld (cfg : Config) (B : Bytes) : Prop where
  noAnchor : findAnchor B = none
  noLF     : findLF B = none
  fits     : belowCap cfg B.length = true

theorem TextHeld.quiescent {cfg : Config} {B : Bytes} (h : TextHeld cfg B) : Quiescent cfg B := by
  by_cases h0 : B = []
  · exact .inl h0
  · exact .inr (.inl ⟨h.noAnchor, h.noLF, List.length_pos_iff.2 h0, h.fits⟩)

theorem Quiescent.textHeld_or_framePending {cfg : Config} {B : Bytes} (hl : cfg.Legal) (h : Quiescent cfg B) :
    TextHeld cfg B ∨ FramePending B := by
  rcases h with rfl | ⟨ha, hf, -, hc⟩ | h
  · exact .inl ⟨rfl, rfl, belowCap_of_legal hl (by simp)⟩
  · exact .inl ⟨ha, hf, hc⟩
  · exact .inr h

theorem TextHeld.not_anchored {cfg : Config} {B : Bytes} (h : TextHeld cfg B) : anchored B = false :=
  (findAnchor_eq_none B).1 h.noAnchor 0

/-- One byte more fits unless it brings B to the capacity. -/
theorem belowCap_succ_iff {cfg : Config} {n : Nat} (h : belowCap cfg n = true) :
    belowCap cfg (n + 1) = true ↔ cfg.bufCap ≠ some (n + 1) := by
  rw [belowCap_iff] at h ⊢
  constructor
  · exact fun hc he => absurd (hc _ he) (Nat.lt_irrefl _)
  · intro hne c hc
    have hlt := h c hc
    have hne' : c ≠ n + 1 := fun he => hne (he ▸ hc)
    omega

/-! ### The ends of a drain -/

theorem append_eq_drained (b : Byte) (blk : Block) : blk.append b = drained blk (blk.B ++ [b]) [] blk.ovf := by
  simp [Block.append, drained]

/-- R114, Q2: the last byte of a frame, good or malformed, sends its message. -/
theorem drain_snoc_message {cfg : Config} {blk : Block} {b : Byte} {m : Msg} (hp : FramePending blk.B)
    (hm : messageOf (blk.B ++ [b]) = some m) (hr : blk.OQ.length < cfg.outDepth) :
    drainToQuiescence cfg (blk.append b) = drained blk [] [m] blk.ovf := by
  obtain ⟨ha, hi⟩ := hp
  rcases messageOf_eq_some.1 hm with ⟨f, n, hd, rfl⟩ | ⟨r, L, n, hd, rfl⟩
  · exact drain_snoc_frameOk ha hi hd hr
  · obtain ⟨hL, hn, -⟩ := tryDecode_consumes.2 r L n hd
    have hsize := size_of_completed ha hi (b := b) (by simp [hd])
    have hspan : (blk.B ++ [b]).take n = blk.B ++ [b] := List.take_of_length_le (by simp [hn, hL, hsize])
    rw [hspan]
    exact drain_snoc_frameInv ha hi hd hr

/-! ### ACCEPT into a quiescent buffer, row by row -/

/-- ACCEPT where it is enabled, from what its drain leaves (R118). -/
theorem exec_accept_drained {s : State} {b : Byte} {B : Bytes} {out : List Msg} {ovf : Bool} (hbusy : s.cyc.busy = 0)
    (he : s.blk.acceptEnabled s.cfg = true)
    (hd : drainToQuiescence s.cfg (s.blk.append b) = drained s.blk B out ovf) :
    exec (.accept b) s = .next (acceptedState s B out ovf) := by
  have hlen : (drained s.blk B out ovf).OQ.length - s.blk.OQ.length = out.length := by simp [drained]
  show execAccept b s = _
  rw [execAccept, if_neg (by simp [Cyc.isBusy, hbusy]), Block.accept, if_pos he, hd]
  simp only [hlen]
  rfl

/-- Settles O36: the four drains of `Laws/Accept` from Q0 and Q1. -/
theorem acceptedTextByteDrains : Obligations.AcceptedTextByteDrains := by
  intro s b hl hbusy heng hroom ha hf hcap B
  have hfits : belowCap s.cfg s.blk.B.length = true := (s.belowCap_cfg_iff _).2 hcap
  have he : s.blk.acceptEnabled s.cfg = true := (acceptEnabled_iff _ _).2 ⟨heng, hroom, hfits⟩
  refine ⟨?_, fun hb h2 hB => ?_, fun hb hc hfill => ?_, fun hb hc hfill => ?_⟩
  · rintro rfl
    rw [← toList_textMsg]
    exact exec_accept_drained hbusy he (drain_snoc_lf ha hf hroom)
  · rw [← toList_textMsg, slice_zero]
    exact exec_accept_drained hbusy he (drain_snoc_anchor ha ⟨hb, h2, hB⟩ hroom)
  · have hfull : belowCap s.cfg (s.blk.B.length + 1) = false :=
      (belowCap_eq_false_iff _ _).2 ⟨_, hfill, le_rfl⟩
    rw [← toList_textMsg]
    exact exec_accept_drained hbusy he (drain_snoc_ovf hl ha hf hb hc hfull hroom)
  · have hwait := drain_snoc_wait ha hf hb hc ((belowCap_succ_iff hfits).2 hfill)
    exact exec_accept_drained hbusy he (hwait.trans (append_eq_drained b s.blk))

/-- Settles O37: the three drains of `Laws/Accept` from Q2. -/
theorem acceptedFrameByteDrains : Obligations.AcceptedFrameByteDrains := by
  intro s b hl hbusy heng hroom hp B
  have he : s.blk.acceptEnabled s.cfg = true :=
    (acceptEnabled_iff _ _).2 ⟨heng, hroom, belowCap_of_legal hl hp.length_lt⟩
  obtain ⟨ha, hi⟩ := hp
  refine ⟨fun hd => ?_, fun f n hd => ⟨?_, ?_⟩, fun r L n hd => ?_⟩
  · exact exec_accept_drained hbusy he ((drain_snoc_frameWait ha hd).trans (append_eq_drained b s.blk))
  · exact exec_accept_drained hbusy he (drain_snoc_frameOk ha hi hd hroom)
  · obtain ⟨hn, -, hraw, -⟩ := tryDecode_consumes.1 f n hd
    have hsize := size_of_completed ha hi (b := b) (by simp [B, hd])
    rw [hraw]
    exact List.take_of_length_le (by simp [B, hn, hsize])
  · exact exec_accept_drained hbusy he (drain_snoc_frameInv ha hi hd hroom)

/-! ### What a quiescent buffer makes of a byte -/

/-- The bytes left in B, the message sent, and whether the overflow flush took place. -/
structure Absorbed where
  rest  : Bytes
  msg   : Option Msg
  fills : Bool

/-- What a quiescent buffer makes of the next byte (R114). -/
def absorb (cfg : Config) (B : Bytes) (b : Byte) : Absorbed :=
  if anchored B then
    if tryDecode (B ++ [b]) = .incomplete then ⟨B ++ [b], none, false⟩ else ⟨[], messageOf (B ++ [b]), false⟩
  else if b = lf then ⟨[], textMsg B, false⟩
  else if b = 0x3E ∧ 2 ≤ B.length ∧ B.drop (B.length - 2) = [0x43, 0x4D] then
    ⟨magic, textMsg (B.take (B.length - 2)), false⟩
  else if belowCap cfg (B.length + 1) then ⟨B ++ [b], none, false⟩
  else ⟨(B ++ [b]).drop (B.length - 1), textMsg ((B ++ [b]).take (B.length - 1)), true⟩

/-- The cases of R114. -/
inductive Absorbs (cfg : Config) (B : Bytes) : Byte → Absorbed → Prop
  | lineEnds : TextHeld cfg B → Absorbs cfg B lf ⟨[], textMsg B, false⟩
  | anchorEnds {b} : TextHeld cfg B → completesAnchor B b →
      Absorbs cfg B b ⟨magic, textMsg (B.take (B.length - 2)), false⟩
  | textWaits {b} : TextHeld cfg B → b ≠ lf → ¬ completesAnchor B b → belowCap cfg (B.length + 1) = true →
      Absorbs cfg B b ⟨B ++ [b], none, false⟩
  | textFills {b} : TextHeld cfg B → b ≠ lf → ¬ completesAnchor B b → belowCap cfg (B.length + 1) = false →
      Absorbs cfg B b ⟨(B ++ [b]).drop (B.length - 1), textMsg ((B ++ [b]).take (B.length - 1)), true⟩
  | frameWaits {b} : FramePending B → tryDecode (B ++ [b]) = .incomplete → Absorbs cfg B b ⟨B ++ [b], none, false⟩
  | frameEnds {b m} : FramePending B → messageOf (B ++ [b]) = some m → Absorbs cfg B b ⟨[], some m, false⟩

/-- The cases of R114 cover every quiescent buffer. -/
theorem Quiescent.absorbs {cfg : Config} {B : Bytes} (hl : cfg.Legal) (h : Quiescent cfg B) (b : Byte) :
    Absorbs cfg B b (absorb cfg B b) := by
  rcases h.textHeld_or_framePending hl with ht | hp
  · have hno : ¬ anchored B = true := by simp [ht.not_anchored]
    rw [absorb, if_neg hno]
    split_ifs with hlf hc hcap
    · subst hlf; exact .lineEnds ht
    · exact .anchorEnds ht hc
    · exact .textWaits ht hlf hc hcap
    · exact .textFills ht hlf hc (by simpa using hcap)
  · have ha' := anchored_append hp.1 [b]
    rw [absorb, if_pos hp.1]
    split_ifs with hd
    · exact .frameWaits hp hd
    · obtain ⟨m, hm⟩ := Option.ne_none_iff_exists'.1 (mt (messageOf_eq_none ha').1 hd)
      rw [hm]; exact .frameEnds hp hm

/-- The capacity is the only parameter that matters (R116). -/
theorem absorb_congr {cfg cfg' : Config} (h : cfg.bufCap = cfg'.bufCap) : absorb cfg = absorb cfg' := by
  have hcap : belowCap cfg = belowCap cfg' := by unfold belowCap; rw [h]
  unfold absorb; rw [hcap]

/-- The block after a drain that left `a`. -/
def Block.absorbed (blk : Block) (a : Absorbed) : Block := drained blk a.rest a.msg.toList (blk.ovf || a.fills)

@[simp] theorem Block.absorbed_B (blk : Block) (a : Absorbed) : (blk.absorbed a).B = a.rest := rfl
@[simp] theorem Block.absorbed_OQ (blk : Block) (a : Absorbed) : (blk.absorbed a).OQ = blk.OQ ++ a.msg.toList := rfl
@[simp] theorem Block.absorbed_eng (blk : Block) (a : Absorbed) : (blk.absorbed a).eng = blk.eng := rfl
@[simp] theorem Block.absorbed_ovf (blk : Block) (a : Absorbed) : (blk.absorbed a).ovf = (blk.ovf || a.fills) := rfl

theorem Block.absorbed_fits (blk : Block) (B : Bytes) (m : Option Msg) :
    blk.absorbed ⟨B, m, false⟩ = drained blk B m.toList blk.ovf := by rw [Block.absorbed, Bool.or_false]

theorem Block.absorbed_fills (blk : Block) (B : Bytes) (m : Option Msg) :
    blk.absorbed ⟨B, m, true⟩ = drained blk B m.toList true := by rw [Block.absorbed, Bool.or_true]

section
variable {cfg : Config} {b : Byte} {a : Absorbed}

/-- The drain does what R114 says, where its message finds room. -/
theorem Absorbs.drain {blk : Block} (h : Absorbs cfg blk.B b a) (hl : cfg.Legal) (hr : blk.OQ.length < cfg.outDepth) :
    drainToQuiescence cfg (blk.append b) = blk.absorbed a := by
  cases h with
  | lineEnds ht => rw [Block.absorbed_fits]; exact drain_snoc_lf ht.noAnchor ht.noLF hr
  | anchorEnds ht hc => rw [Block.absorbed_fits]; exact drain_snoc_anchor ht.noAnchor hc hr
  | textWaits ht hb hc hcap =>
    rw [Block.absorbed_fits]
    exact (drain_snoc_wait ht.noAnchor ht.noLF hb hc hcap).trans (append_eq_drained b blk)
  | textFills ht hb hc hcap => rw [Block.absorbed_fills]; exact drain_snoc_ovf hl ht.noAnchor ht.noLF hb hc hcap hr
  | frameWaits hp hd => rw [Block.absorbed_fits]; exact (drain_snoc_frameWait hp.1 hd).trans (append_eq_drained b blk)
  | frameEnds hp hm => rw [Block.absorbed_fits]; exact drain_snoc_message hp hm hr

/-- The anchor alone is a frame still to come. -/
theorem framePending_magic : FramePending magic := ⟨by decide, by decide⟩

/-- R113: what is left is quiescent. -/
theorem Absorbs.quiescent {B : Bytes} (h : Absorbs cfg B b a) (hl : cfg.Legal) : Quiescent cfg a.rest := by
  cases h with
  | lineEnds | frameEnds => exact .inl rfl
  | anchorEnds => exact .inr (.inr framePending_magic)
  | textWaits ht hb hc hcap =>
    exact TextHeld.quiescent ⟨findAnchor_snoc_none ht.noAnchor hc, findLF_snoc_none ht.noLF hb, by simpa using hcap⟩
  | textFills ht hb hc hcap =>
    have hlen := length_of_belowCap_false hl hcap
    exact TextHeld.quiescent ⟨findAnchor_eq_none_of_drop (findAnchor_snoc_none ht.noAnchor hc) _,
      findLF_eq_none_of_drop (findLF_snoc_none ht.noLF hb) _, belowCap_of_legal hl (by simp; omega)⟩
  | frameWaits hp hd => exact .inr (.inr ⟨anchored_append hp.1 _, hd⟩)

/-- The flush takes place at the capacity and leaves two bytes (R108). -/
theorem Absorbs.fills {B : Bytes} (h : Absorbs cfg B b a) (hl : cfg.Legal) (hf : a.fills = true) :
    a.rest.length = 2 ∧ cfg.bufCap = some (B.length + 1) := by
  cases h with
  | textFills ht hb hc hcap =>
    have hlen := length_of_belowCap_false hl hcap
    have hcap' : cfg.bufCap = some (B.length + 1) := by
      by_contra hne; rw [(belowCap_succ_iff ht.fits).2 hne] at hcap; cases hcap
    exact ⟨by simp; omega, hcap'⟩
  | _ => cases hf

/-- A Text message cut from text without anchor and terminator, below the capacity, has its form (R71, R115). -/
theorem textMsg_good {S : Bytes} (ha : findAnchor S = none) (hf : findLF S = none) (hc : belowCap cfg S.length = true) :
    ∀ m ∈ textMsg S, Msg.Good cfg m := by
  intro m hm
  by_cases h0 : trim S = []
  · rw [(textMsg_eq_none S).2 h0] at hm; cases hm
  · rw [textMsg_of_trim_ne_nil h0] at hm
    obtain rfl := Option.some.inj hm
    have hin := trim_infix S
    exact ⟨h0, trim_trim S, findLF_eq_none_of_infix hin hf, findAnchor_eq_none_of_infix hin ha,
      belowCap_mono hin.length_le hc⟩

/-- Every message an accepted byte sends has its form (R71 to R73, R115). -/
theorem Absorbs.msg_good {B : Bytes} (h : Absorbs cfg B b a) : ∀ m ∈ a.msg, Msg.Good cfg m := by
  cases h with
  | lineEnds ht => exact textMsg_good ht.noAnchor ht.noLF ht.fits
  | anchorEnds ht hc =>
    have hin := (B.take_prefix (B.length - 2)).isInfix
    exact textMsg_good (findAnchor_eq_none_of_infix hin ht.noAnchor) (findLF_eq_none_of_infix hin ht.noLF)
      (belowCap_mono hin.length_le ht.fits)
  | textFills ht hb hc hcap =>
    have hin := ((B ++ [b]).take_prefix (B.length - 1)).isInfix
    exact textMsg_good (findAnchor_eq_none_of_infix hin (findAnchor_snoc_none ht.noAnchor hc))
      (findLF_eq_none_of_infix hin (findLF_snoc_none ht.noLF hb)) (belowCap_mono (by simp) ht.fits)
  | frameEnds hp hm =>
    intro m' hm'
    obtain rfl := Option.some.inj hm'
    exact messageOf_good hm cfg
  | textWaits | frameWaits => intro m hm; cases hm

end

/-- An enabled ACCEPT of a quiescent block (R114, R118). -/
theorem accept_eq_absorbed {cfg : Config} {blk : Block} (hl : cfg.Legal) (hq : Quiescent cfg blk.B)
    (he : blk.acceptEnabled cfg = true) (b : Byte) :
    blk.accept cfg b = some (blk.absorbed (absorb cfg blk.B b)) := by
  rw [Block.accept, if_pos he, (hq.absorbs hl b).drain hl ((acceptEnabled_iff _ _).1 he).2.1]

/-- Settles O35: the facts about `absorb`, read from the block. -/
theorem acceptEmitsAtMostOneMessage : Obligations.AcceptEmitsAtMostOneMessage := by
  intro cfg blk b hl hq he
  have hab := hq.absorbs hl b
  refine ⟨_, accept_eq_absorbed hl hq he b, hab.quiescent hl, rfl, append_toList_eq_or _ _, ?_⟩
  cases hf : (absorb cfg blk.B b).fills with
  | false => exact .inl (by simp [hf])
  | true => exact .inr ⟨by simp [hf], hab.fills hl hf⟩

end Sys2Proof.Machine
end

section
/-! PROOF. The invariant of the machine (spec/41_stream_demux.md R113 to R115, spec/10_state.md R15, R125): one lemma for each
thing a step is made of, the block's by `Absorbs`. -/

namespace Sys2Proof.Machine

/-! ### The block -/

section
variable {cfg : Config} {blk blk' : Block}

/-- The invariant speaks of B and OQ alone. -/
theorem Block.Good.of_eq (h : blk.Good cfg) (hB : blk'.B = blk.B) (hQ : blk'.OQ = blk.OQ) : blk'.Good cfg where
  quiescent := hB ▸ h.quiescent
  depth := hQ ▸ h.depth
  msgs := hQ ▸ h.msgs

/-- RECONNECT gives Q0 and keeps the queue (R113, R120). -/
theorem Block.Good.restart (h : blk.Good cfg) : blk.restart.Good cfg where
  quiescent := .inl rfl
  depth := h.depth
  msgs := h.msgs

/-- An enabled ACCEPT finds room for its message (R114). -/
theorem Block.Good.absorbed (h : blk.Good cfg) (hl : cfg.Legal) (hr : blk.OQ.length < cfg.outDepth) (b : Byte) :
    (blk.absorbed (absorb cfg blk.B b)).Good cfg := by
  have hab := h.quiescent.absorbs hl b
  have hone : (absorb cfg blk.B b).msg.toList.length ≤ 1 := Option.length_toList_le
  refine ⟨hab.quiescent hl, ?_, ?_⟩
  · rw [Block.absorbed_OQ, List.length_append]; omega
  · rw [Block.absorbed_OQ]
    exact List.forall_mem_append.2 ⟨h.msgs, fun m hm => hab.msg_good m (Option.mem_toList.1 hm)⟩

end

/-! ### The cycle-level state -/

/-- A passing cycle brings the message and the fall of BUSY closer; what waits has acted where BUSY falls (R125). -/
theorem Cyc.Good.advance {c : Cyc} {queued : Nat} (h : c.Good queued) (p : PortIn) : (c.advance p).Good queued where
  shown := Nat.sub_le_sub_right h.shown 1
  unseen := fun hpos => h.unseen (hpos.trans_le (Nat.sub_le _ _))
  pend := fun hb => by
    have hle : ¬ 1 < c.busy := by simp only [Cyc.advance] at hb; omega
    simp [Cyc.advance, hle]

/-- A message taken was shown, so that what is not shown yet still stands in OQ (R125). -/
theorem Cyc.Good.pop {c : Cyc} {n : Nat} (h : c.Good (n + 1)) (hv : c.hidden < n + 1) : c.Good n where
  shown := h.shown
  unseen := fun hpos => by
    have hhid : c.hidden = c.unseen := if_neg (by omega)
    exact ⟨(h.unseen hpos).1, by omega⟩
  pend := h.pend

/-- A drain that starts on an idle block keeps its messages back no longer than BUSY lasts (R125). -/
theorem Cyc.Good.startDrain {c : Cyc} {queued n queued' : Nat} (h : c.Good queued) (hb : c.busy = 0) (cfg : Config)
    (hn : n ≤ 1) (hq : n ≤ queued') : (c.startDrain cfg n).Good queued' where
  shown := min_le_right _ _
  unseen := fun _ => ⟨hn, hq⟩
  pend := fun _ => h.pend hb

/-! ### The stages of an edge -/

section
variable {s t : State}

theorem State.Good.withBlk (h : s.Good) {blk : Block} (hb : blk.Good s.cfg) (hq : blk.OQ = s.blk.OQ) :
    (s.withBlk blk).Good where
  par := h.par
  blk := hb
  cyc := by rw [State.withBlk_cyc, State.withBlk_blk, hq]; exact h.cyc
  popped := h.popped

theorem State.Good.withCyc (h : s.Good) {c : Cyc} (hc : c.Good s.blk.OQ.length) : (s.withCyc c).Good where
  par := h.par
  blk := h.blk
  cyc := hc
  popped := h.popped

/-- The stimulus and the result of a call are not the block's. -/
theorem State.Good.withStim (h : s.Good) (l : List Stim) : (s.withStim l).Good := ⟨h.par, h.blk, h.cyc, h.popped⟩

theorem State.Good.withResult (h : s.Good) (r : CallResult) : (s.withResult r).Good := ⟨h.par, h.blk, h.cyc, h.popped⟩

theorem State.Good.begun (h : s.Good) (p : PortIn) : (s.begun p).Good := by
  have hadv : (s.withCyc (s.cyc.advance p)).Good := h.withCyc (h.cyc.advance p)
  simp only [State.begun]
  split
  · exact hadv.withBlk h.blk.restart rfl
  · exact hadv

theorem State.Good.popsTo (h : s.Good) (hv : 0 < s.visible) (hp : s.PopsTo t) : t.Good := by
  obtain ⟨m, rest, hQ, rfl⟩ := hp
  have hlen : s.blk.OQ.length = rest.length + 1 := by rw [hQ]; rfl
  have hmsgs := h.blk.msgs
  rw [hQ] at hmsgs
  obtain ⟨hm, hrest⟩ := List.forall_mem_cons.1 hmsgs
  have hdepth := h.blk.depth
  rw [State.visible_eq, hlen] at hv
  have hhid : s.cyc.hidden < rest.length + 1 := by omega
  exact {
    par := h.par
    blk := ⟨h.blk.quiescent, by rw [hlen] at hdepth; exact Nat.le_of_succ_le hdepth, hrest⟩
    cyc := Cyc.Good.pop (hlen ▸ h.cyc) hhid
    popped := List.forall_mem_append.2 ⟨h.popped, by simpa using hm⟩ }

theorem State.Good.accepted (h : s.Good) (hb : s.cyc.busy = 0) (he : s.blk.acceptEnabled s.cfg = true) (b : Byte) :
    (s.accepted b).Good := by
  have hr := ((acceptEnabled_iff _ _).1 he).2.1
  have hdrain := (h.blk.quiescent.absorbs h.par b).drain h.par hr
  have hone : (absorb s.cfg s.blk.B b).msg.toList.length ≤ 1 := Option.length_toList_le
  simp only [State.accepted, hdrain]
  have hq : (s.blk.absorbed (absorb s.cfg s.blk.B b)).OQ.length - s.blk.OQ.length ≤ 1 := by
    rw [Block.absorbed_OQ, List.length_append]; omega
  exact {
    par := h.par
    blk := h.blk.absorbed h.par hr b
    cyc := h.cyc.startDrain hb s.cfg hq (Nat.sub_le _ _)
    popped := h.popped }

theorem State.Good.fatal (h : s.Good) : (s.withBlk s.blk.fatal).Good := h.withBlk (h.blk.of_eq rfl rfl) rfl

theorem State.Good.stop (h : s.Good) : (s.withBlk s.blk.stop).Good :=
  h.withBlk (h.blk.of_eq (Block.stop_B _) (Block.stop_OQ _)) (Block.stop_OQ _)

theorem State.Good.reset (h : s.Good) (tick : Nat) :
    ((s.withBlk Block.reset).withCyc { Cyc.reset with tick := tick }).Good where
  par := h.par
  blk := Block.reset_good _
  cyc := ⟨le_rfl, fun hpos => absurd hpos (Nat.lt_irrefl 0), fun _ => ⟨rfl, rfl, rfl⟩⟩
  popped := h.popped

theorem State.begun_cyc (s : State) (p : PortIn) : (s.begun p).cyc = s.cyc.advance p := by
  simp only [State.begun]; split <;> rfl

/-- The five stages of an edge, in turn (R124). -/
theorem EdgeStages.good {p : PortIn} {s1 s2 s3 s4 s5 : State} (hst : EdgeStages p s s1 s2 s3 s4 s5) (hg : s.Good) :
    s5.Good := by
  obtain ⟨hpar, h1, h2, h3, h4, h5⟩ := hst
  have g1 : s1.Good := h1 ▸ hg.begun p
  have c1 : s1.cyc = s.cyc.advance p := h1 ▸ s.begun_cyc p
  obtain ⟨g2, c2⟩ : s2.Good ∧ s2.cyc = s.cyc.advance p := by
    split at h2
    next hpop =>
      have hvis : 0 < s.visible := ((outValid_iff _ _).1 (Bool.and_eq_true_iff.1 hpop).1).2
      have hvis1 : 0 < s1.visible := h1 ▸ hvis.trans_le (s.keepsOffer_begun p).shown
      refine ⟨g1.popsTo hvis1 h2, ?_⟩
      obtain ⟨m, rest, -, rfl⟩ := h2
      exact c1
    next => exact h2 ▸ ⟨g1, c1⟩
  have g3 : s3.Good := by
    split at h3
    next hacc =>
      have hbusy : s.cyc.busy = 0 := ((inReady_iff _ _).1 (Bool.and_eq_true_iff.1 hacc).2).2.1
      have hbusy2 : s2.cyc.busy = 0 := by simp [c2, Cyc.advance, hbusy]
      have hcfg : s2.cfg = s.cfg := by rw [State.cfg, State.cfg, hpar]
      obtain ⟨he, rfl⟩ := h3
      exact g2.accepted hbusy2 (hcfg ▸ he) _
    next => exact h3 ▸ g2
  have g4 : s4.Good := by
    rw [h4]; split
    · exact g3.fatal
    · exact g3
  rw [h5]; split
  · exact g4.stop
  · exact g4

end

/-! ### The step -/

theorem runEdge_good {p : PortIn} {s t : State} (hg : s.Good) (h : runEdge p s = .next t) : t.Good := by
  cases hr : p.rst with
  | true =>
    rw [runEdge_rst p s hr] at h
    cases h
    exact hg.reset _
  | false =>
    obtain ⟨s1, s2, s3, s4, s5, hst, he⟩ := runEdge_stages p s hr
    rw [he] at h
    cases h
    exact hst.good hg

/-- A stand-alone iteration finds a good block quiescent (R113). -/
theorem exec_branchRow_good {br : Branch} {s t : State} (hg : s.Good) (h : exec br.toInstr s = .next t) : t.Good := by
  obtain ⟨-, rfl⟩ := exec_branchRow_next h
  rw [drainStep_of_quiescent hg.blk.quiescent]
  exact hg.withResult _

theorem runStim_good {x : Stim} {s t : State} (hg : s.Good) (h : runStim x s = .next t) : t.Good := by
  cases x with
  | edge p => exact runEdge_good hg h
  | tryDecode S =>
    obtain ⟨i, hd, hi⟩ := runTryDecode_next h
    rw [(rowReturns_of_decode hd).2 s] at hi
    cases hi
    exact hg.withResult _
  | buildFrame cmd params => cases h; exact hg.withResult _
  | drainStep => exact exec_branchRow_good hg h

/-- Settles O55: whatever the step fetches keeps the invariant. -/
theorem stepKeepsTheInvariant : Obligations.StepKeepsTheInvariant := by
  intro s t hg h
  rw [step, stepStim] at h
  split at h
  · exact runEdge_good hg h
  · exact runStim_good (hg.withStim _) h

end Sys2Proof.Machine
end

section
/-! PROOF. Streams (spec/41_stream_demux.md R116): a frame and a line fed byte by byte, and that the messages are a function of the
accepted bytes and the reconnects alone. -/

namespace Sys2Proof.Machine

/-! ### Runs -/

/-- A run in two parts. -/
theorem run_append {cfg : Config} {l₁ l₂ : List Label} {blk mid : Block} {out : List Msg}
    (h : Block.run cfg l₁ blk = some (mid, out)) :
    Block.run cfg (l₁ ++ l₂) blk = (Block.run cfg l₂ mid).map fun r => (r.1, out ++ r.2) := by
  induction l₁ generalizing blk out with
  | nil =>
    cases h
    simp
  | cons l rest ih =>
    rw [Block.run] at h
    rw [List.cons_append, Block.run]
    cases hn : blk.next cfg l with
    | none => rw [hn] at h; cases h
    | some r =>
      obtain ⟨blk', o⟩ := r
      simp only [hn, Option.map_eq_some_iff, Prod.mk.injEq, Prod.exists] at h
      obtain ⟨mid', o', hrun, rfl, rfl⟩ := h
      simp [ih hrun, Option.map_map, Function.comp_def]

/-- A first label that leads on leads through a block. -/
theorem run_cons_eq_some {cfg : Config} {l : Label} {rest : List Label} {blk blk' : Block} {out : List Msg}
    (h : Block.run cfg (l :: rest) blk = some (blk', out)) :
    ∃ mid o o', blk.next cfg l = some (mid, o) ∧ Block.run cfg rest mid = some (blk', o') ∧ out = o ++ o' := by
  rw [Block.run] at h
  cases hn : blk.next cfg l with
  | none => rw [hn] at h; cases h
  | some r =>
    obtain ⟨mid, o⟩ := r
    simp only [hn, Option.map_eq_some_iff, Prod.mk.injEq, Prod.exists] at h
    obtain ⟨mid', o', hrun, rfl, rfl⟩ := h
    exact ⟨mid, o, o', rfl, hrun, rfl⟩

/-- One byte more of a stream. -/
theorem run_acceptAll_snoc {cfg : Config} {X : Bytes} {b : Byte} {blk mid blk' : Block}
    (h : Block.run cfg (acceptAll X) blk = some (mid, [])) (ha : mid.accept cfg b = some blk') :
    Block.run cfg (acceptAll (X ++ [b])) blk = some (blk', []) := by
  have hsplit : acceptAll (X ++ [b]) = acceptAll X ++ [.accept b] := List.map_append
  rw [hsplit, run_append h]
  simp [Block.run, Block.next, ha]

section
variable {cfg : Config} {blk : Block}

/-- Bytes all of whose prefixes are quiescent pile up in an empty running block. -/
theorem run_acceptAll_waits (hl : cfg.Legal) (hB : blk.B = []) (heng : blk.eng = .run)
    (hr : blk.OQ.length < cfg.outDepth) {X : Bytes} (hX : ∀ Y, Y <+: X → Quiescent cfg Y) :
    Block.run cfg (acceptAll X) blk = some ({ blk with B := X }, []) := by
  induction X using List.reverseRecOn with
  | nil =>
    have hblk : ({ blk with B := [] } : Block) = blk := by rw [← hB]
    rw [hblk]; rfl
  | append_singleton X b ih =>
    have hXb : X <+: X ++ [b] := List.prefix_append X [b]
    have he : ({ blk with B := X } : Block).acceptEnabled cfg = true :=
      (acceptEnabled_iff _ _).2 ⟨heng, hr, (hX X hXb).belowCap hl⟩
    refine run_acceptAll_snoc (ih fun Y hY => hX Y (hY.trans hXb)) ?_
    rw [Block.accept, if_pos he]
    exact congrArg some
      (drainToQuiescence_quiet (drainStep_of_quiescent (hX (X ++ [b]) List.prefix_rfl)) (by simp))

/-- The last byte of a stream that waited, from what its drain leaves. -/
theorem run_acceptAll_drained (hl : cfg.Legal) (hB : blk.B = []) (heng : blk.eng = .run)
    (hr : blk.OQ.length < cfg.outDepth) {X : Bytes} {b : Byte} {out : List Msg}
    (hX : ∀ Y, Y <+: X → Quiescent cfg Y)
    (hd : drainToQuiescence cfg (({ blk with B := X } : Block).append b) = drained { blk with B := X } [] out blk.ovf) :
    Block.run cfg (acceptAll (X ++ [b])) blk = some ({ blk with OQ := blk.OQ ++ out }, []) := by
  have he : ({ blk with B := X } : Block).acceptEnabled cfg = true :=
    (acceptEnabled_iff _ _).2 ⟨heng, hr, (hX X List.prefix_rfl).belowCap hl⟩
  refine run_acceptAll_snoc (run_acceptAll_waits hl hB heng hr hX) ?_
  rw [Block.accept, if_pos he, hd, drained, ← hB]

end

/-! ### A frame and a line -/

theorem TextHeld.of_prefix {cfg : Config} {X Y : Bytes} (h : TextHeld cfg X) (hY : Y <+: X) : TextHeld cfg Y where
  noAnchor := findAnchor_eq_none_of_infix hY.isInfix h.noAnchor
  noLF := findLF_eq_none_of_infix hY.isInfix h.noLF
  fits := belowCap_mono hY.length_le h.fits

/-- Settles O58: every part of the line waits as text, and the LF ends it. -/
theorem lineFedByBytesGivesItsText : Obligations.LineFedByBytesGivesItsText := by
  intro cfg blk X hl hB heng hr ha hf hc
  have hX : TextHeld cfg X := ⟨ha, (findLF_eq_none X).2 hf, hc⟩
  rw [← toList_textMsg]
  exact run_acceptAll_drained hl hB heng hr (fun Y hY => (hX.of_prefix hY).quiescent)
    (drain_snoc_lf hX.noAnchor hX.noLF hr)

/-- Less than the anchor is text. -/
theorem textHeld_of_prefix_magic {cfg : Config} (hl : cfg.Legal) {Y : Bytes} (hY : Y <+: magic) (h3 : Y.length < 3) :
    TextHeld cfg Y where
  noAnchor := by
    cases hk : findAnchor Y with
    | none => rfl
    | some k =>
      have hle := le_length_of_anchored_drop ((findAnchor_eq_some Y k).1 hk).1
      omega
  noLF := (findLF_eq_none Y).2 fun hm => absurd (hY.subset hm) (by decide)
  fits := belowCap_of_legal hl (by omega)

/-- A part of a frame that holds its anchor waits for the rest (R93, R94). -/
theorem framePending_of_prefix {F Y : Bytes} (ha : anchored F = true) (hF : F.length = 5 + (lenField F).toNat)
    (hY : Y <+: F) (h3 : 3 ≤ Y.length) (hlt : Y.length < F.length) : FramePending Y := by
  obtain ⟨n, rfl⟩ : ∃ n, Y = F.take n := ⟨_, List.prefix_iff_eq_take.1 hY⟩
  have hn : 3 ≤ n := h3.trans (List.length_take_le n F)
  have haY : anchored (F.take n) = true := by
    rw [anchored_eq_of_take (T := F) (by rw [List.take_take, min_eq_left hn]), ha]
  refine ⟨haY, (tryDecode_incomplete_iff haY).2 ?_⟩
  by_cases h5 : (F.take n).length < 5
  · exact .inl h5
  · rw [lenField_take F ((not_lt.1 h5).trans (List.length_take_le n F))]
    exact .inr (hF ▸ hlt)

/-- A part of a frame waits: as text before its anchor is whole, as a pending frame after. -/
theorem quiescent_of_prefix_frame {cfg : Config} (hl : cfg.Legal) {F Y : Bytes} (ha : anchored F = true)
    (hF : F.length = 5 + (lenField F).toNat) (hY : Y <+: F) (hlt : Y.length < F.length) : Quiescent cfg Y := by
  by_cases h3 : 3 ≤ Y.length
  · exact .inr (.inr (framePending_of_prefix ha hF hY h3 hlt))
  · obtain ⟨rest, rfl⟩ := (anchored_iff F).1 ha
    have hmagic : Y <+: magic :=
      List.prefix_of_prefix_length_le hY (List.prefix_append magic rest) (by simp [magic]; omega)
    exact (textHeld_of_prefix_magic hl hmagic (by omega)).quiescent

/-- Settles O57: every part of the frame waits, and the last byte sends the frame's message. -/
theorem frameFedByBytesGivesItsOneMessage : Obligations.FrameFedByBytesGivesItsOneMessage := by
  intro cfg blk F hl hB heng hr ha h5 hF
  have hcomplete : tryDecode F ≠ .incomplete := by rw [Ne, tryDecode_incomplete_iff ha]; omega
  obtain ⟨m, hm⟩ := Option.ne_none_iff_exists'.1 (mt (messageOf_eq_none ha).1 hcomplete)
  obtain ⟨G, b, rfl⟩ : ∃ G b, F = G ++ [b] :=
    ⟨F.dropLast, _, (List.dropLast_append_getLast (List.ne_nil_of_length_pos (by omega))).symm⟩
  have hlen : (G ++ [b]).length = G.length + 1 := List.length_append
  have hG : G <+: G ++ [b] := List.prefix_append G [b]
  have hpending : FramePending G := framePending_of_prefix ha hF hG (by omega) (by omega)
  refine ⟨m, hm, run_acceptAll_drained hl hB heng hr (fun Y hY => ?_) (drain_snoc_message hpending hm hr)⟩
  exact quiescent_of_prefix_frame hl ha hF (hY.trans hG) (by have := hY.length_le; omega)

/-! ### The stream view -/

/-- What the stream decides: B, all messages sent so far, and `ovf`. -/
structure StreamView where
  B    : Bytes
  msgs : List Msg
  ovf  : Bool

/-- The stream view of a block whose consumer has received `popped`. -/
def Block.view (popped : List Msg) (blk : Block) : StreamView := ⟨blk.B, popped ++ blk.OQ, blk.ovf⟩

/-- What a label does to the stream view (R116): only an accepted byte and a RECONNECT act on it. -/
def StreamView.next (cfg : Config) (v : StreamView) : Label → StreamView
  | .accept b =>
    ⟨(absorb cfg v.B b).rest, v.msgs ++ (absorb cfg v.B b).msg.toList, v.ovf || (absorb cfg v.B b).fills⟩
  | .reconnect => ⟨[], v.msgs, false⟩
  | .pop | .cancel | .terr | .reset => v

/-- The capacity is the only parameter the view depends on (R116). -/
theorem StreamView.next_congr {cfg cfg' : Config} (h : cfg.bufCap = cfg'.bufCap) :
    StreamView.next cfg = StreamView.next cfg' := by
  funext v l
  cases l with
  | accept b => rw [StreamView.next, StreamView.next, absorb_congr h]
  | _ => rfl

theorem StreamView.next_of_not_ofStream (cfg : Config) (v : StreamView) {l : Label} (h : l.ofStream = false) :
    v.next cfg l = v := by
  cases l with
  | accept | reconnect => cases h
  | pop | cancel | terr | reset => rfl

/-- A transition but RESET acts on the view as the label says, and keeps B quiescent. -/
theorem next_view {cfg : Config} (hl : cfg.Legal) {l : Label} (hreset : l ≠ .reset) {blk blk' : Block} {out : List Msg}
    (hq : Quiescent cfg blk.B) (h : blk.next cfg l = some (blk', out)) (popped : List Msg) :
    Quiescent cfg blk'.B ∧ blk'.view (popped ++ out) = (blk.view popped).next cfg l := by
  cases l with
  | accept b =>
    simp only [Block.next, Option.map_eq_some_iff, Prod.mk.injEq] at h
    obtain ⟨k, hk, rfl, rfl⟩ := h
    have he : blk.acceptEnabled cfg = true := by
      by_contra hn
      rw [Block.accept, if_neg hn] at hk
      cases hk
    rw [accept_eq_absorbed hl hq he] at hk
    cases hk
    exact ⟨(hq.absorbs hl b).quiescent hl, by simp [Block.view, StreamView.next]⟩
  | pop =>
    unfold Block.next Block.pop at h
    cases hQ : blk.OQ with
    | nil => rw [hQ] at h; cases h
    | cons m rest =>
      rw [hQ] at h
      cases h
      exact ⟨hq, by simp [Block.view, StreamView.next, hQ]⟩
  | reconnect => cases h; exact ⟨.inl rfl, by simp [Block.view, StreamView.next]⟩
  | cancel => cases h; exact ⟨by simpa using hq, by simp [Block.view, StreamView.next]⟩
  | terr => cases h; exact ⟨hq, by simp [Block.view, StreamView.next]⟩
  | reset => exact absurd rfl hreset

/-- A run without RESET acts on the view by its accepted bytes and reconnects alone (R116). -/
theorem run_view {cfg : Config} (hl : cfg.Legal) {ls : List Label} (hreset : Label.reset ∉ ls) {blk blk' : Block}
    {out : List Msg} (hq : Quiescent cfg blk.B) (h : Block.run cfg ls blk = some (blk', out)) (popped : List Msg) :
    blk'.view (popped ++ out) = (ls.filter Label.ofStream).foldl (StreamView.next cfg) (blk.view popped) := by
  induction ls generalizing blk out popped with
  | nil => cases h; simp
  | cons l rest ih =>
    obtain ⟨hl', hrest⟩ := not_or.1 (mt List.mem_cons.2 hreset)
    obtain ⟨mid, o, o', hn, hrun, rfl⟩ := run_cons_eq_some h
    obtain ⟨hqm, hview⟩ := next_view hl (Ne.symm hl') hq hn popped
    rw [← List.append_assoc, ih hrest hqm hrun, hview]
    cases hs : l.ofStream with
    | true => rw [List.filter_cons_of_pos hs, List.foldl_cons]
    | false => rw [List.filter_cons_of_neg (by simp [hs]), StreamView.next_of_not_ofStream cfg _ hs]

/-- Settles O59: both runs fold the same labels with the same function. -/
theorem messagesDependOnTheStreamAlone : Obligations.MessagesDependOnTheStreamAlone := by
  intro cfg₁ cfg₂ ls₁ ls₂ b₁ b₂ out₁ out₂ hl₁ hl₂ hcap hr₁ hr₂ hls h₁ h₂
  have hview : b₁.view out₁ = b₂.view out₂ := by
    have v₁ := run_view hl₁ hr₁ (.inl rfl) h₁ []
    have v₂ := run_view hl₂ hr₂ (.inl rfl) h₂ []
    rw [List.nil_append] at v₁ v₂
    rw [v₁, v₂, hls, StreamView.next_congr hcap]
  simp only [Block.view, StreamView.mk.injEq] at hview
  obtain ⟨hB, hmsgs, hovf⟩ := hview
  exact ⟨hmsgs, hB, hovf⟩

end Sys2Proof.Machine
end

section
/-! PROOF. The ports (spec/42_port_operations.md R118 to R124): which transitions an edge takes, where the rows of ACCEPT and POP
run, and what each of the six rows leaves alone. -/

namespace Sys2Proof.Machine

/-! ### The events of an edge -/

/-- Without `rst`, the five events in order, each under its condition (R124). -/
theorem decodeEdge_not_rst {p : PortIn} (h : p.rst = false) (inR outV : Bool) :
    decodeEdge p inR outV =
      (if p.reconnect then [.reconnect] else []) ++ (if outV && p.outReady then [.pop] else []) ++
      (if p.inValid && inR then [.accept p.inData] else []) ++ (if p.inErr then [.terr] else []) ++
      (if p.cancel then [.cancel] else []) := by
  rw [decodeEdge, if_neg (by simp [h])]

/-- An event under a condition is a part of the event alone. -/
theorem ite_singleton_sublist (c : Bool) (i : Instr) : (if c then [i] else []).Sublist [i] := by
  cases c
  · exact List.nil_sublist _
  · exact List.Sublist.refl _

theorem decodeEdge_sublist {p : PortIn} (h : p.rst = false) (inR outV : Bool) :
    (decodeEdge p inR outV).Sublist [.reconnect, .pop, .accept p.inData, .terr, .cancel] := by
  rw [decodeEdge_not_rst h]
  exact ((((ite_singleton_sublist p.reconnect _).append (ite_singleton_sublist (outV && p.outReady) _)).append
    (ite_singleton_sublist (p.inValid && inR) _)).append (ite_singleton_sublist p.inErr _)).append
    (ite_singleton_sublist p.cancel _)

/-- Settles O18: the order from `decodeEdge_sublist`, the conditions from the events written out. -/
theorem edgeTakesItsEventsInOrder : Obligations.EdgeTakesItsEventsInOrder := by
  intro p inR outV
  refine ⟨fun h => decodeEdge_rst h inR outV, fun h => ⟨decodeEdge_sublist h inR outV, ?_⟩⟩
  rw [decodeEdge_not_rst h]
  simp [and_assoc, and_comm]

/-- Settles O19: the six rows with a port condition, each evaluated under its own. -/
theorem portConditionSelectsItsTransition : Obligations.PortConditionSelectsItsTransition := by
  intro i p h
  cases i with
  | accept | pop | reconnect | cancel | terr | reset => cases h; rfl
  | _ => cases h

/-! ### Where the rows run -/

/-- ACCEPT runs where `in_ready` is 1 (R25, R118). -/
theorem exec_accept_enabled {s : State} (hb : s.cyc.busy = 0) (he : s.blk.acceptEnabled s.cfg = true) (b : Byte) :
    exec (.accept b) s = .next (s.accepted b) := by
  show execAccept b s = _
  rw [execAccept, if_neg (by simp [Cyc.isBusy, hb]), Block.accept, if_pos he]

theorem exec_accept_refused {s : State} (h : ¬ (s.cyc.busy = 0 ∧ s.blk.acceptEnabled s.cfg = true)) (b : Byte) :
    exec (.accept b) s = .refused .acceptNotEnabled := by
  show execAccept b s = _
  by_cases hb : s.cyc.busy = 0
  · rw [execAccept, if_neg (by simp [Cyc.isBusy, hb]), Block.accept, if_neg fun he => h ⟨hb, he⟩]
  · rw [execAccept, if_pos (by simpa [Cyc.isBusy] using Nat.pos_of_ne_zero hb)]

/-- ACCEPT runs exactly where it is enabled. -/
theorem exec_accept_next_iff (s : State) (b : Byte) :
    (∃ t, exec (.accept b) s = .next t) ↔ s.cyc.busy = 0 ∧ s.blk.acceptEnabled s.cfg = true := by
  constructor
  · rintro ⟨t, h⟩
    obtain ⟨hb, he, -⟩ := exec_accept_next h
    exact ⟨hb, he⟩
  · exact fun ⟨hb, he⟩ => ⟨_, exec_accept_enabled hb he b⟩

theorem exec_pop_cons {s : State} {m : Msg} {rest : List Msg} (h : s.blk.OQ = m :: rest) :
    exec .pop s = .next ((s.withBlk { s.blk with OQ := rest }).receive m) := by
  show execPop s = _
  rw [execPop, Block.pop, h]

theorem exec_pop_nil {s : State} (h : s.blk.OQ = []) : exec .pop s = .refused .popNotEnabled := by
  show execPop s = _
  rw [execPop, Block.pop, h]

theorem exec_cancel (s : State) : exec .cancel s = .next (s.withBlk s.blk.stop) := rfl

theorem exec_terr (s : State) : exec .terr s = .next (s.withBlk s.blk.fatal) := rfl

/-- Settles O38: ACCEPT runs where it is enabled or is refused; POP by the two shapes of OQ. -/
theorem acceptAndPopRunExactlyWhereEnabled : Obligations.AcceptAndPopRunExactlyWhereEnabled := by
  intro s b
  refine ⟨?_, ⟨fun h => exec_accept_refused (mt (exec_accept_next_iff s b).2 h) b, fun h => by simp [h]⟩,
    exec_pop_nil, fun h => ?_⟩
  · rw [exec_accept_next_iff, acceptEnabled_iff, State.belowCap_cfg_iff, and_comm, and_assoc, and_assoc]
  · cases hQ : s.blk.OQ with
    | nil => rfl
    | cons m rest => rw [exec_pop_cons hQ] at h; cases h

/-- Settles O39: the two shapes of OQ. -/
theorem popDeliversTheHead : Obligations.PopDeliversTheHead :=
  ⟨rfl, fun _ => ⟨fun _ _ => exec_pop_cons, fun hQ => by simp [exec_pop_nil hQ]⟩⟩

/-! ### What the rows leave alone -/

theorem Block.stop_of_run {blk : Block} (h : blk.eng = .run) : blk.stop = { blk with eng := .stopped } := if_pos h

theorem Block.stop_of_ne_run {blk : Block} (h : blk.eng ≠ .run) : blk.stop = blk := if_neg h

/-- Settles O41: CANCEL by whether the engine runs, TERR as it is written. -/
theorem cancelStopsAndTerrIsFatal : Obligations.CancelStopsAndTerrIsFatal := by
  refine ⟨rfl, rfl, fun s => ⟨fun h => ?_, fun h => ?_, exec_terr s⟩⟩
  · rw [exec_cancel, Block.stop_of_run h]; rfl
  · rw [exec_cancel, Block.stop_of_ne_run h]; rfl

/-- Settles O47: each row that answers next is written out; ACCEPT's drain keeps `eng`, and CANCEL and TERR write it alone. -/
theorem portRowsFrame : Obligations.PortRowsFrame := by
  intro s t
  refine ⟨fun b h => ?_, fun h => ?_, fun h => ?_, fun h => ?_, fun h => ?_⟩
  · obtain ⟨-, -, rfl⟩ := exec_accept_next h
    exact ⟨(drainToQuiescence_any s.cfg (s.blk.append b)).1, rfl, rfl, rfl, rfl, rfl⟩
  · obtain ⟨m, rest, -, rfl⟩ := exec_pop_next h
    exact ⟨rfl, rfl, rfl, rfl, rfl, rfl, rfl⟩
  · cases h
    exact ⟨rfl, rfl, rfl, rfl⟩
  · rcases h with h | h <;> cases h
    · exact ⟨Block.stop_B _, Block.stop_OQ _, Block.stop_ovf _, rfl, rfl, rfl⟩
    · exact ⟨rfl, rfl, rfl, rfl, rfl, rfl⟩
  · cases h
    exact ⟨rfl, rfl⟩

end Sys2Proof.Machine
end

section
/-! PROOF. The machine with its clock against the transition system (spec/42_port_operations.md R117, R124, R125): a busy edge
takes no byte, and every edge is a run of the labels its events stand for. -/

namespace Sys2Proof.Machine

/-! ### An edge while BUSY is 1 -/

/-- While BUSY stays 1 the three control samples are held back (R125). -/
theorem Cyc.effective_busy {c : Cyc} (h : 1 < c.busy) (p : PortIn) :
    c.effective p = { p with reconnect := false, inErr := false, cancel := false } := if_pos h

/-- Where BUSY falls, or is 0, what waited acts with the edge's own samples (R125). -/
theorem Cyc.effective_falling {c : Cyc} (h : c.busy ≤ 1) (p : PortIn) :
    c.effective p = { p with
      reconnect := p.reconnect || c.pendReconnect
      inErr     := p.inErr || c.pendErr
      cancel    := p.cancel || c.pendCancel } := if_neg (not_lt.2 h)

/-- While BUSY stays 1 every control sample is kept (R125). -/
theorem Cyc.advance_busy {c : Cyc} (h : 1 < c.busy) (p : PortIn) :
    c.advance p = { c with
      busy          := c.busy - 1
      seenIn        := c.seenIn - 1
      pendReconnect := p.reconnect || c.pendReconnect
      pendErr       := p.inErr || c.pendErr
      pendCancel    := p.cancel || c.pendCancel
      tick          := c.tick + 1 } := by
  simp [Cyc.advance, h]

/-- Where BUSY falls, or is 0, no sample is kept (R125). -/
theorem Cyc.advance_falling {c : Cyc} (h : c.busy ≤ 1) (p : PortIn) :
    c.advance p = { c with
      busy          := 0
      seenIn        := c.seenIn - 1
      pendReconnect := false
      pendErr       := false
      pendCancel    := false
      tick          := c.tick + 1 } := by
  simp [Cyc.advance, not_lt.2 h, Nat.sub_eq_zero_of_le h]

/-- A block that is not busy acts on its samples as they are: nothing waits (R125). -/
theorem Cyc.Good.effective {c : Cyc} {queued : Nat} (h : c.Good queued) (hb : c.busy = 0) (p : PortIn) :
    c.effective p = p := by
  obtain ⟨hr, he, hc⟩ := h.pend hb
  simp [Cyc.effective_falling (c := c) (by omega), hr, he, hc]

/-- The controls `e` act on a block in the order RECONNECT, TERR, CANCEL (R124). -/
def Block.controlled (e : PortIn) (blk : Block) : Block :=
  let blk₁ := if e.reconnect then blk.restart else blk
  let blk₂ := if e.inErr then blk₁.fatal else blk₁
  if e.cancel then blk₂.stop else blk₂

theorem Block.controlled_B (e : PortIn) (blk : Block) :
    (blk.controlled e).B = if e.reconnect then [] else blk.B := by
  unfold Block.controlled
  split_ifs <;> simp

theorem Block.controlled_ovf (e : PortIn) (blk : Block) :
    (blk.controlled e).ovf = if e.reconnect then false else blk.ovf := by
  unfold Block.controlled
  split_ifs <;> simp

theorem Block.controlled_eng (e : PortIn) (blk : Block) :
    (blk.controlled e).eng =
      if e.inErr then .fatal
      else
        let eng := if e.reconnect then .run else blk.eng
        if e.cancel && eng = .run then .stopped else eng := by
  unfold Block.controlled
  split_ifs <;> simp [*, Block.stop_eng]

theorem State.begun_blk (s : State) (p : PortIn) :
    (s.begun p).blk = if (s.cyc.effective p).reconnect then s.blk.restart else s.blk := by
  simp only [State.begun]
  split <;> rfl

/-- The POP of an edge, where there is one, writes the queue of the block alone. -/
theorem EdgeStages.pop_frame {p : PortIn} {s s1 s2 s3 s4 s5 : State} (h : EdgeStages p s s1 s2 s3 s4 s5) :
    s2.cyc = s1.cyc ∧ ∃ Q, s2.blk = { s1.blk with OQ := Q } := by
  have h2 := h.h2
  split_ifs at h2
  · obtain ⟨m, rest, -, rfl⟩ := h2
    exact ⟨rfl, rest, rfl⟩
  · subst h2
    exact ⟨rfl, s2.blk.OQ, rfl⟩

/-- While BUSY is 1 no byte is taken: the cycle passes, the queue may lose its head, and the controls the edge acts on act on the
block (R125). -/
theorem runEdge_busy {p : PortIn} {s t : State} (hr : p.rst = false) (hb : 0 < s.cyc.busy) (h : runEdge p s = .next t) :
    t.cyc = s.cyc.advance p ∧ ∃ Q, t.blk = ({ s.blk with OQ := Q } : Block).controlled (s.cyc.effective p) := by
  obtain ⟨s1, s2, s3, s4, s5, hst, hs5⟩ := runEdge_stages p s hr
  obtain rfl : s5 = t := Host.Outcome.next.inj (hs5.symm.trans h)
  obtain ⟨hcyc, Q, hblk⟩ := hst.pop_frame
  obtain ⟨-, rfl, -, h3, rfl, rfl⟩ := hst
  have hin : inReady p.rst s = false := by simp [inReady, Cyc.isBusy, hb]
  obtain rfl : s3 = s2 := by simpa [hin] using h3
  rw [State.begun_cyc] at hcyc
  rw [State.begun_blk] at hblk
  refine ⟨by split_ifs <;> exact hcyc, Q, ?_⟩
  unfold Block.controlled
  split_ifs at hblk ⊢ <;> simp [hblk, Block.restart]

/-- Settles O53: `runEdge_busy`, with the controls of the two cases of `Cyc.effective`. -/
theorem busyDefersTheControls : Obligations.BusyDefersTheControls := by
  intro s t p hr h
  refine ⟨fun hb => ?_, fun hb => ?_⟩
  · obtain ⟨hcyc, Q, hblk⟩ := runEdge_busy hr (by omega) h
    rw [hblk, hcyc, Cyc.effective_busy hb, Cyc.advance_busy hb]
    exact ⟨rfl, rfl, rfl, rfl, rfl, rfl, rfl⟩
  · obtain ⟨hcyc, Q, hblk⟩ := runEdge_busy hr (by omega) h
    rw [hblk, hcyc, Block.controlled_B, Block.controlled_ovf, Block.controlled_eng, Cyc.effective_falling hb.le,
      Cyc.advance_falling hb.le]
    exact ⟨rfl, rfl, rfl, rfl, rfl, rfl, rfl⟩

/-! ### A step as a run of labels -/

/-- From `s` to `t` the block runs the labels `ls`, and the consumer receives their POP outputs (R117, R127). -/
def State.Runs (s : State) (ls : List Label) (t : State) : Prop :=
  ∃ out, Block.run s.cfg ls s.blk = some (t.blk, out) ∧ t.env.popped = s.env.popped ++ out

/-- No label: the block and what the consumer has received stay. -/
theorem State.runs_nil {s t : State} (hblk : t.blk = s.blk) (hpop : t.env.popped = s.env.popped) : s.Runs [] t :=
  ⟨[], by rw [hblk]; rfl, by rw [hpop, List.append_nil]⟩

/-- The row of a label is that transition of the block (R117). -/
theorem exec_label_next {l : Label} {s t : State} (h : exec l.toInstr s = .next t) :
    ∃ out, s.blk.next s.cfg l = some (t.blk, out) ∧ t.env.popped = s.env.popped ++ out := by
  cases l with
  | accept b =>
    obtain ⟨-, he, rfl⟩ := exec_accept_next h
    exact ⟨[], by simp [Block.next, Block.accept, he], (List.append_nil _).symm⟩
  | pop =>
    obtain ⟨m, rest, hQ, rfl⟩ := exec_pop_next h
    exact ⟨[m], by simp [Block.next, Block.pop, hQ], rfl⟩
  | reconnect | cancel | terr | reset => cases h; exact ⟨[], rfl, (List.append_nil _).symm⟩

/-- Events that are labels run the block by those labels. -/
theorem runEvents_runs {ls : List Label} {s t : State} (h : runEvents (ls.map Label.toInstr) s = .next t) : s.Runs ls t := by
  induction ls generalizing s with
  | nil => cases h; exact State.runs_nil rfl rfl
  | cons l rest ih =>
    obtain ⟨u, hl, hrest⟩ := runEvents_cons_next h
    obtain ⟨out, hnext, hpop⟩ := exec_label_next hl
    obtain ⟨out', hrun, hpop'⟩ := ih hrest
    have hcfg : u.cfg = s.cfg := congrArg Params.config (exec_label_par hl)
    rw [hcfg] at hrun
    exact ⟨out ++ out', by simp [Block.run, hnext, hrun], by rw [hpop', hpop, List.append_assoc]⟩

/-- The events of an edge are labels (R124). -/
theorem decodeEdge_labels (p : PortIn) (inR outV : Bool) : ∃ ls : List Label, ls.map Label.toInstr = decodeEdge p inR outV := by
  cases hr : p.rst with
  | true => exact ⟨[.reset], (decodeEdge_rst hr inR outV).symm⟩
  | false =>
    have hsub : (decodeEdge p inR outV).Sublist (List.map Label.toInstr [.reconnect, .pop, .accept p.inData, .terr, .cancel]) :=
      decodeEdge_sublist hr inR outV
    obtain ⟨ls, -, h⟩ := List.sublist_map_iff.1 hsub
    exact ⟨ls, h.symm⟩

theorem runEdge_runs {p : PortIn} {s t : State} (h : runEdge p s = .next t) :
    ∃ ls, s.Runs ls t ∧ ls.map Label.toInstr = edgeEvents p s := by
  obtain ⟨ls, hls⟩ := decodeEdge_labels (s.cyc.effective p) (inReady p.rst s) (outValid p.rst s)
  rw [runEdge, edgeEvents, ← hls] at h
  have hrun : (s.withCyc (s.cyc.advance p)).Runs ls t := runEvents_runs h
  exact ⟨ls, hrun, hls⟩

/-- A stand-alone call writes its result alone: a drain iteration finds a good block quiescent (R18, R113). -/
theorem runStim_call {x : Stim} {s t : State} (hg : s.Good) (hx : ∀ p, x ≠ .edge p) (h : runStim x s = .next t) :
    ∃ r, t = s.withResult r := by
  cases x with
  | edge p => exact absurd rfl (hx p)
  | tryDecode S =>
    obtain ⟨i, hd, hi⟩ := runTryDecode_next h
    rw [(rowReturns_of_decode hd).2 s] at hi
    cases hi
    exact ⟨_, rfl⟩
  | buildFrame cmd params => cases h; exact ⟨_, rfl⟩
  | drainStep =>
    obtain ⟨-, rfl⟩ := exec_branchRow_next h
    rw [drainStep_of_quiescent hg.blk.quiescent]
    exact ⟨_, rfl⟩

theorem runStim_runs {x : Stim} {s t : State} (hg : s.Good) (h : runStim x s = .next t) :
    ∃ ls, s.Runs ls t ∧ ∀ p, x = .edge p → ls.map Label.toInstr = edgeEvents p s := by
  by_cases hx : ∃ p, x = .edge p
  · obtain ⟨p, rfl⟩ := hx
    obtain ⟨ls, hrun, hls⟩ := runEdge_runs h
    exact ⟨ls, hrun, fun q hq => by cases hq; exact hls⟩
  · obtain ⟨r, rfl⟩ := runStim_call hg (not_exists.1 hx) h
    exact ⟨[], State.runs_nil rfl rfl, fun p hp => absurd ⟨p, hp⟩ hx⟩

/-- Settles O56: an edge runs its events as labels, a stand-alone call none; on an idle block nothing waits to be added to the
edge's own samples. -/
theorem stepRefinesTheTransitionSystem : Obligations.StepRefinesTheTransitionSystem := by
  intro s t hg h
  rw [step, stepStim] at h
  split at h
  next hnil =>
    obtain ⟨ls, ⟨out, hrun, hpop⟩, -⟩ := runEdge_runs h
    exact ⟨ls, out, hrun, hpop, fun p rest hs => by rw [hnil] at hs; cases hs⟩
  next x rest hcons =>
    obtain ⟨ls, ⟨out, hrun, hpop⟩, hls⟩ := runStim_runs (hg.withStim rest) h
    refine ⟨ls, out, hrun, hpop, fun p rest' hs hb => ?_⟩
    obtain ⟨rfl, rfl⟩ := List.cons.inj (hcons.symm.trans hs)
    rw [hls p rfl, edgeEvents, State.withStim_cyc, hg.cyc.effective hb]
    rfl

end Sys2Proof.Machine
end

section
/-! PROOF. The step (spec/42_port_operations.md R117, R124; spec/60_exceptions.md R134): it runs what it fetches, and it stops
only by the fault of a stand-alone `TryDecode` on a buffer without the anchor. -/

namespace Sys2Proof.Machine

/-! ### What the step fetches -/

/-- The oldest stimulus is run, on the state without it. -/
theorem step_of_stim {s : State} {x : Stim} {rest : List Stim} (h : s.env.stim = x :: rest) :
    step s = runStim x (s.withStim rest) := by
  rw [step, stepStim, h]

/-- With no stimulus left nothing is offered (R150). -/
theorem step_of_no_stim {s : State} (h : s.env.stim = []) : step s = runEdge {} s := by
  rw [step, stepStim, h]

/-! ### What a stimulus runs -/

/-- One event is its instruction. -/
theorem runEvents_singleton (i : Instr) (s : State) : runEvents [i] s = exec i s := by
  rw [runEvents]
  cases exec i s <;> rfl

/-- A stand-alone `TryDecode` runs the row the decoder reads. -/
theorem runTryDecode_ok {S : Bytes} {i : Instr} (h : decode S = .ok i) (s : State) : runTryDecode S s = exec i s := by
  rw [runTryDecode, h]

/-- Where the decoder reads no row, the call is the fault of R134. -/
theorem runTryDecode_misaligned {S : Bytes} (h : decode S = .error .misaligned) (s : State) :
    runTryDecode S s = .fault (.misalignedDecode S) := by
  rw [runTryDecode, h]

/-- An edge that is fetched runs its events on the state without it: the stimulus is no part of what the edge samples (R124). -/
theorem step_of_edge {s : State} {p : PortIn} {rest : List Stim} (h : s.env.stim = .edge p :: rest) :
    step s = runEvents (decodeEdge (s.cyc.effective p) (inReady p.rst s) (outValid p.rst s))
      ((s.withStim rest).withCyc (s.cyc.advance p)) :=
  step_of_stim h

/-- Settles O51: one equation per stimulus. -/
theorem stepRunsTheDecodedInstruction : Obligations.StepRunsTheDecodedInstruction := by
  intro s rest
  refine ⟨fun p => step_of_edge, fun p i h hi => ?_, fun S i h hd => ?_, fun S h hd => ?_, fun c p => step_of_stim,
    step_of_stim, step_of_no_stim⟩
  · rw [step_of_edge h, hi, runEvents_singleton]
  · exact (step_of_stim h).trans (runTryDecode_ok hd _)
  · exact (step_of_stim h).trans (runTryDecode_misaligned hd _)

/-! ### Where the step stops -/

/-- No edge stops the machine: what it takes is enabled when its turn comes (R124). -/
theorem runEdge_completes (p : PortIn) (s : State) : ∃ t, runEdge p s = .next t := by
  cases hr : p.rst with
  | true => exact ⟨_, runEdge_rst p s hr⟩
  | false =>
    obtain ⟨_, _, _, _, t, -, ht⟩ := runEdge_stages p s hr
    exact ⟨t, ht⟩

/-- A stand-alone `TryDecode` completes, or its buffer lacks the anchor and it is the fault of R134. -/
theorem runTryDecode_completes_or_faults (S : Bytes) (s : State) :
    (∃ t, runTryDecode S s = .next t) ∨ (anchored S = false ∧ runTryDecode S s = .fault (.misalignedDecode S)) := by
  cases hd : decode S with
  | ok i => exact .inl ⟨_, (runTryDecode_ok hd s).trans ((rowReturns_of_decode hd).2 s)⟩
  | error e =>
    cases e
    exact .inr ⟨(decode_error_iff S).1 hd, runTryDecode_misaligned hd s⟩

/-- Whatever the environment does completes, but for the `TryDecode` that faults. -/
theorem runStim_completes_or_faults (x : Stim) (s : State) :
    (∃ t, runStim x s = .next t) ∨
    (∃ S, x = .tryDecode S ∧ anchored S = false ∧ runStim x s = .fault (.misalignedDecode S)) := by
  cases x with
  | edge p => exact .inl (runEdge_completes p s)
  | tryDecode S => exact (runTryDecode_completes_or_faults S s).imp_right fun h => ⟨S, rfl, h⟩
  | buildFrame cmd params => exact .inl ⟨_, rfl⟩
  | drainStep => exact .inl ⟨_, exec_selected rfl⟩

/-- Settles O52: by what the step fetches. -/
theorem stepStopsOnlyOnAMisalignedCall : Obligations.StepStopsOnlyOnAMisalignedCall := by
  intro s
  cases hs : s.env.stim with
  | nil => exact .inl (by rw [step_of_no_stim hs]; exact runEdge_completes {} s)
  | cons x rest =>
    rw [step_of_stim hs]
    refine (runStim_completes_or_faults x (s.withStim rest)).imp_right ?_
    rintro ⟨S, rfl, ha, hf⟩
    exact ⟨S, rest, rfl, ha, hf⟩

end Sys2Proof.Machine
end

section
/-! PROOF. A stopped block (spec/70_reset_and_hazards.md R162, spec/60_exceptions.md R142): until RECONNECT or RESET it takes no byte,
keeps B, `ovf` and the stop, and only a POP acts on OQ. -/

namespace Sys2Proof.Machine

/-! ### What a stopped block keeps -/

/-- `blk` leads to `blk'` as a stopped block may, with the messages `out` popped on the way (R162). -/
structure Block.FreezesTo (blk : Block) (out : List Msg) (blk' : Block) : Prop where
  B       : blk'.B = blk.B
  ovf     : blk'.ovf = blk.ovf
  stopped : blk'.eng ≠ .run
  fatal   : blk.eng = .fatal → blk'.eng = .fatal
  OQ      : blk.OQ = out ++ blk'.OQ

theorem Block.FreezesTo.refl {blk : Block} (h : blk.eng ≠ .run) : blk.FreezesTo [] blk :=
  ⟨rfl, rfl, h, id, rfl⟩

theorem Block.FreezesTo.trans {blk mid blk' : Block} {out out' : List Msg} (h : blk.FreezesTo out mid)
    (h' : mid.FreezesTo out' blk') : blk.FreezesTo (out ++ out') blk' where
  B := h'.B.trans h.B
  ovf := h'.ovf.trans h.ovf
  stopped := h'.stopped
  fatal := h'.fatal ∘ h.fatal
  OQ := by rw [h.OQ, h'.OQ, List.append_assoc]

/-! ### One label -/

/-- ACCEPT is enabled in RUN alone (R118). -/
theorem Block.accept_of_ne_run {cfg : Config} {blk : Block} (h : blk.eng ≠ .run) (b : Byte) : blk.accept cfg b = none :=
  if_neg fun he => h ((acceptEnabled_iff cfg blk).1 he).1

/-- A POP takes the head of OQ and writes nothing else (R119). -/
theorem Block.pop_eq_some {blk blk' : Block} {m : Msg} (h : blk.pop = some (m, blk')) :
    blk.OQ = m :: blk'.OQ ∧ blk' = { blk with OQ := blk'.OQ } := by
  unfold Block.pop at h
  split at h
  next => cases h
  next hQ => cases h; exact ⟨hQ, rfl⟩

/-- The labels a stopped block may take are POP, CANCEL and TERR, and each of them freezes it. -/
theorem next_of_stopped {cfg : Config} {l : Label} {blk blk' : Block} {out : List Msg} (hs : blk.eng ≠ .run)
    (hreconnect : l ≠ .reconnect) (hreset : l ≠ .reset) (h : blk.next cfg l = some (blk', out)) :
    (∀ b, l ≠ .accept b) ∧ blk.FreezesTo out blk' := by
  cases l with
  | accept b => rw [Block.next, Block.accept_of_ne_run hs] at h; cases h
  | pop =>
    simp only [Block.next, Option.map_eq_some_iff, Prod.mk.injEq, Prod.exists] at h
    obtain ⟨m, _, hpop, rfl, rfl⟩ := h
    obtain ⟨hQ, hframe⟩ := Block.pop_eq_some hpop
    rw [hframe]
    exact ⟨nofun, rfl, rfl, hs, id, hQ⟩
  | cancel =>
    rw [Block.next, Block.stop_of_ne_run hs] at h
    cases h
    exact ⟨nofun, .refl hs⟩
  | terr => cases h; exact ⟨nofun, rfl, rfl, nofun, fun _ => rfl, rfl⟩
  | reconnect => exact absurd rfl hreconnect
  | reset => exact absurd rfl hreset

/-! ### A run -/

/-- A run without RECONNECT and RESET from a stopped block has no ACCEPT and freezes it (R162). -/
theorem run_of_stopped {cfg : Config} {ls : List Label} {blk blk' : Block} {out : List Msg} (hs : blk.eng ≠ .run)
    (hreconnect : Label.reconnect ∉ ls) (hreset : Label.reset ∉ ls) (h : Block.run cfg ls blk = some (blk', out)) :
    (∀ b, Label.accept b ∉ ls) ∧ blk.FreezesTo out blk' := by
  induction ls generalizing blk out with
  | nil => cases h; exact ⟨fun _ => List.not_mem_nil, .refl hs⟩
  | cons l rest ih =>
    obtain ⟨hl₁, hrest₁⟩ := List.ne_and_not_mem_of_not_mem_cons hreconnect
    obtain ⟨hl₂, hrest₂⟩ := List.ne_and_not_mem_of_not_mem_cons hreset
    obtain ⟨mid, o, o', hnext, hrun, rfl⟩ := run_cons_eq_some h
    obtain ⟨hl, hmid⟩ := next_of_stopped hs hl₁.symm hl₂.symm hnext
    obtain ⟨hrest, hend⟩ := ih hmid.stopped hrest₁ hrest₂ hrun
    exact ⟨fun b => List.not_mem_cons_of_ne_of_not_mem (hl b).symm (hrest b), hmid.trans hend⟩

/-- Settles O42: the run freezes the block, field by field. -/
theorem stoppedEngineFreezesTheBuffer : Obligations.StoppedEngineFreezesTheBuffer := by
  intro cfg ls blk blk' out hs hreconnect hreset h
  obtain ⟨hls, hfrozen⟩ := run_of_stopped hs hreconnect hreset h
  exact ⟨hls, hfrozen.B, hfrozen.ovf, hfrozen.stopped, hfrozen.fatal, hfrozen.OQ⟩

end Sys2Proof.Machine
end

section
/-! PROOF. The decoder and the encoder are inverse to each other (spec/30_encoding.md sections 1 and 3): a frame is the frame of its
payload, and the class of a payload has that frame as its bytes. -/

namespace Sys2Proof.Machine

/-! ### Decode of encode -/

theorem classify_tooShort {P : Bytes} (h : P.length ≤ 5) : classify P = .tooShort P := if_pos h

theorem classify_crcMismatch {P : Bytes} (h : 6 ≤ P.length) (hx : xorfold P ≠ 0) : classify P = .crcMismatch P := by
  rw [classify, if_neg (by omega), if_pos hx]

/-- A frame whose payload is of the class `i` reads back as `i`, whatever follows it (R63, R93). -/
theorem decode_frameOf_of_classify {P : Bytes} {i : Instr} (h : P.length ≤ maxLen) (hi : classify P = i) (X : Bytes) :
    decode (frameOf P ++ X) = .ok i := hi ▸ decode_frameOf h X

/-- A control frame reads back as the row of its type byte (R64). -/
theorem decode_ctrlFrame (c : Half) (t : Byte) (st : Half) (X : Bytes) :
    decode (frameOf (ctrlPayload c t st) ++ X) = .ok (ctrlRow c t st) :=
  decode_frameOf_of_classify (P := ctrlPayload c t st) (show 6 ≤ maxLen by decide) (classify_ctrlPayload c t st) X

/-- A frame with a body of at least four bytes reads back as DATA (R59). -/
theorem decode_dataFrame (c : Half) {body : Bytes} (h4 : 4 ≤ body.length) (hle : body.length ≤ 65532) (X : Bytes) :
    decode (frameOf (withCrc ([hiByte c, loByte c] ++ body)) ++ X) = .ok (.data c body) :=
  decode_frameOf_of_classify (by rw [length_dataPayload, maxLen]; omega) (classify_data c body h4) X

/-- A frame with a payload of at most five bytes reads back as TOO_SHORT (R61). -/
theorem decode_shortFrame {P : Bytes} (h : P.length ≤ 5) (X : Bytes) : decode (frameOf P ++ X) = .ok (.tooShort P) :=
  decode_frameOf_of_classify (h.trans (by decide)) (classify_tooShort h) X

/-- Settles O16: each frame row is the class of the payload it is encoded with. -/
theorem decodeOfEncodeIsTheFrame : Obligations.DecodeOfEncodeIsTheFrame := by
  intro i X hwf
  cases i with
  | ack c st => exact decode_ctrlFrame c 0x01 st X
  | done c st => exact decode_ctrlFrame c 0x02 st X
  | nack c st => exact decode_ctrlFrame c 0x04 st X
  | ctrlOther c t st =>
    simp only [Instr.wf, Bool.and_eq_true, bne_iff_ne] at hwf
    obtain ⟨⟨h1, h2⟩, h4⟩ := hwf
    have hrow : ctrlRow c t st = .ctrlOther c t st := by rw [ctrlRow, if_neg h1, if_neg h2, if_neg h4]
    exact (decode_ctrlFrame c t st X).trans (congrArg Except.ok hrow)
  | data c body =>
    simp only [Instr.wf, Bool.and_eq_true, decide_eq_true_eq] at hwf
    obtain ⟨h4, hle⟩ := hwf
    exact decode_dataFrame c h4 hle X
  | crcMismatch P =>
    simp only [Instr.wf, Bool.and_eq_true, decide_eq_true_eq, bne_iff_ne] at hwf
    obtain ⟨⟨h6, hmax⟩, hx⟩ := hwf
    exact decode_frameOf_of_classify hmax (classify_crcMismatch h6 hx) X
  | tooShort P => exact decode_shortFrame (of_decide_eq_true hwf) X
  | incomplete rest => exact (decode_and_tryDecode_incomplete hwf).1
  | req c p =>
    have hle : p.length ≤ 65532 := of_decide_eq_true hwf
    exact ⟨fun h2 => decode_shortFrame (by rw [length_dataPayload]; omega) X, fun h4 => decode_dataFrame c h4 hle X⟩
  | dEmpty | dPrefix | dFrameWait | dFrameOk | dFrameInv | dLine | dOvf | dWait => rfl
  | accept | pop | reconnect | cancel | terr | reset => rfl

/-! ### Encode of decode -/

theorem encode_ctrlRow (c : Half) (t : Byte) (st : Half) : encode (ctrlRow c t st) = frameOf (ctrlPayload c t st) := by
  unfold ctrlRow
  split_ifs with h1 h2 h4
  · rw [h1]; rfl
  · rw [h2]; rfl
  · rw [h4]; rfl
  · rfl

/-- The bytes of the class of a payload are the frame of that payload (R58 to R61). -/
theorem encode_classify (P : Bytes) : encode (classify P) = frameOf P := by
  by_cases h5 : P.length ≤ 5
  · rw [classify_tooShort h5]; rfl
  have h6 : 6 ≤ P.length := by omega
  by_cases hx : xorfold P = 0
  · rcases h6.eq_or_lt with hl | hl
    · obtain ⟨c, t, st, rfl⟩ := eq_ctrlPayload hl.symm hx
      rw [classify_ctrlPayload, encode_ctrlRow]
    · obtain ⟨c, body, rfl, h4⟩ := eq_dataPayload hl hx
      rw [classify_data c body h4]; rfl
  · rw [classify_crcMismatch h6 hx]; rfl

/-- A complete payload is never the class INCOMPLETE (R63). -/
theorem classify_ne_incomplete (P rest : Bytes) : classify P ≠ .incomplete rest := by
  unfold classify ctrlRow
  split_ifs <;> exact Instr.noConfusion

theorem lenField_frameOf_append (P X : Bytes) : lenField (frameOf P ++ X) = BitVec.ofNat 16 P.length := by
  rw [frameOf_append, lenField_magic, be16_hi_lo]

/-- The declared span of a buffer that starts with a frame is that frame (R56). -/
theorem slice_declared_frameOf_append {P : Bytes} (h : P.length ≤ maxLen) (X : Bytes) :
    slice (frameOf P ++ X) 0 (5 + (lenField (frameOf P ++ X)).toNat) = frameOf P := by
  have hlen : (frameOf P).length = 5 + P.length := by rw [frameOf_eq, List.length_append]; rfl
  rw [slice_zero, lenField_frameOf_append, lenOf_toNat h, List.take_left' hlen]

/-- Settles O17: the buffer is incomplete, or it starts with the frame of a payload whose class it decodes to. -/
theorem encodeOfDecodeIsTheDeclaredFrame : Obligations.EncodeOfDecodeIsTheDeclaredFrame := by
  intro S i h
  obtain ⟨rest, rfl, -⟩ := decode_ok h
  rcases incomplete_or_frame rest with hinc | ⟨P, X, hP, hS⟩
  · obtain rfl : Instr.incomplete rest = i := Except.ok.inj ((decode_and_tryDecode_incomplete hinc).1.symm.trans h)
    rfl
  · rw [hS, decode_frameOf hP] at h
    obtain rfl : classify P = i := Except.ok.inj h
    split
    next hi => exact absurd hi (classify_ne_incomplete P _)
    next => rw [hS, encode_classify, slice_declared_frameOf_append hP]

/-! ### Written-out words -/

/-- Settles O20: the decoder evaluates each word to its row. -/
theorem writtenOutFramesDecode : Obligations.WrittenOutFramesDecode :=
  ⟨rfl, rfl, rfl, rfl, rfl, rfl, rfl, rfl, rfl⟩

end Sys2Proof.Machine
end
